-- ==== Sys2Proof/Word.lean ====
section
/-! DEFINITION. The widths of the block's values (00_scope.md R5 to R7). Every value is an unsigned bit vector;
bit 0 is the least significant bit. -/

namespace Sys2Proof

/-- A 32-bit value: the CRC register, a table entry, an argument, response data (R5 `W`). -/
abbrev Word := BitVec 32

/-- An 8-bit value: an input byte, a table index or an opcode (R5 `BYTEW`, `IDXW`; R6 `OPW`). -/
abbrev Byte := BitVec 8

/-- A command word `cmd[39:0]` (30_encoding.md R50; R6 `CMDW`). -/
abbrev CmdWord := BitVec 40

/-- A response word `rsp[35:0]` (30_encoding.md R56; R6 `RSPW`). -/
abbrev RspWord := BitVec 36

end Sys2Proof
end

