-- ==== Sys2Proof/Syntax.lean ====
section
/-! DEFINITION. The commands of the block, one constructor per row of spec/opcode_table.json (30_encoding.md R53),
and the written forms that stand for them: a source line of the assembler (R59) and the pseudo-instructions (R60). -/

namespace Sys2Proof

/-- A decoded command. Operands have exactly the width of their field (30_encoding.md R51, R52). -/
inductive Instr where
  /-- NOP, format Z (42_system.md R110). -/
  | nop
  /-- BUILD, format Z (40_table_generator.md R72, R73). -/
  | build
  /-- RDTAB, format B: the operand is a table index (40_table_generator.md R74). -/
  | rdtab (b : Byte)
  /-- INIT, format Z (41_register_update.md R90). -/
  | init
  /-- LOAD, format W: the operand is the new register value (41_register_update.md R91). -/
  | load (v : Word)
  /-- UPD, format B: the operand is an input byte (41_register_update.md R92). -/
  | upd (b : Byte)
  /-- UPDI, format B: the operand is a table index (41_register_update.md R94). -/
  | updi (x : Byte)
  /-- IDX, format B: the operand is an input byte (41_register_update.md R95). -/
  | idx (b : Byte)
  /-- RDCRC, format Z (41_register_update.md R96). -/
  | rdcrc
  /-- RDST, format Z (42_system.md R111). -/
  | rdst
  deriving DecidableEq, Repr

/-- The mnemonics of 30_encoding.md R53. -/
inductive Mnemonic where
  | NOP | BUILD | RDTAB | INIT | LOAD | UPD | UPDI | IDX | RDCRC | RDST
  deriving DecidableEq, Repr

/-- The three command formats of 30_encoding.md R51. -/
inductive Format where
  /-- No operand. -/
  | Z
  /-- One byte or index operand. -/
  | B
  /-- One 32-bit operand. -/
  | W
  deriving DecidableEq, Repr

/-- The format column of 30_encoding.md R53. -/
def Mnemonic.format : Mnemonic → Format
  | .NOP | .BUILD | .INIT | .RDCRC | .RDST => .Z
  | .RDTAB | .UPD | .UPDI | .IDX => .B
  | .LOAD => .W

/-- The mnemonic of a command. -/
def Instr.mnemonic : Instr → Mnemonic
  | .nop => .NOP
  | .build => .BUILD
  | .rdtab _ => .RDTAB
  | .init => .INIT
  | .load _ => .LOAD
  | .upd _ => .UPD
  | .updi _ => .UPDI
  | .idx _ => .IDX
  | .rdcrc => .RDCRC
  | .rdst => .RDST

/-- One line of a source program after reading its text: a mnemonic and the number its operand denotes, if it has an
operand (30_encoding.md R59). A number may be too large for its field; WellFormed.lean checks that. -/
structure SourceLine where
  mnemonic : Mnemonic
  operand : Option Nat
  deriving DecidableEq, Repr

/-- The operand of a command as a number. -/
def Instr.operand : Instr → Option Nat
  | .nop | .build | .init | .rdcrc | .rdst => none
  | .rdtab b | .upd b | .updi b | .idx b => some b.toNat
  | .load v => some v.toNat

/-- The source line that denotes a command (30_encoding.md R59). -/
def Instr.source (i : Instr) : SourceLine := ⟨i.mnemonic, i.operand⟩

/-- The pseudo-instructions of 30_encoding.md R60. -/
inductive Pseudo where
  /-- `UPDS "c1...cn"`: one UPD per byte, in order. -/
  | upds (bytes : List Byte)
  /-- `CRCSTR "c1...cn"`: INIT, then UPDS. -/
  | crcstr (bytes : List Byte)
  /-- `LASTIDX "c1...cn"`, n at least 1, written as the bytes before the last and the last byte. -/
  | lastidx (front : List Byte) (last : Byte)
  /-- `ADV x`: UPDI. -/
  | adv (x : Byte)
  deriving DecidableEq, Repr

end Sys2Proof
end

