-- ==== Sys2Proof/WellFormed.lean ====
section
/-! DEFINITION. Well-formedness of what is written. A source line is well formed when it has an operand exactly when
its format has one and the operand fits its field (30_encoding.md R51, R59). A command is well formed when the source
line that denotes it is. (Which 40-bit WORDS are legal is `legalWord` in Decode.lean.) -/

namespace Sys2Proof

/-- The operand check of 30_encoding.md R59: none for format Z, `0` to `255` for format B, at most 32 bits for
format W. -/
def Format.admits : Format → Option Nat → Bool
  | .Z, none => true
  | .Z, some _ => false
  | .B, some n => decide (n < 2 ^ 8)
  | .B, none => false
  | .W, some n => decide (n < 2 ^ 32)
  | .W, none => false

/-- A source line denotes a command. -/
def SourceLine.wellFormed (l : SourceLine) : Bool := l.mnemonic.format.admits l.operand

/-- A command is well formed when the source line that denotes it is. The operand types of `Instr` have the width of
their fields, so every command is (`Laws.instr_wellFormed` in Laws/Decode.lean). -/
def Instr.wellFormed (i : Instr) : Bool := i.source.wellFormed

end Sys2Proof
end

