-- ==== Sys2Proof/Decode.lean ====
section
/-! DEFINITION. The opcode map of 30_encoding.md R53, the decoder (total on every 40-bit word, rejecting by name) and
the encoder. -/

namespace Sys2Proof

/-- `cmd[39:32]`, the opcode (30_encoding.md R50). -/
def opOf (w : CmdWord) : Byte := w.extractLsb' 32 8

/-- `cmd[31:0]`, the argument field, the operand of format W (R50, R51). -/
def argOf (w : CmdWord) : Word := w.extractLsb' 0 32

/-- `cmd[7:0]`, the operand of format B (R51, R52). -/
def byteOf (w : CmdWord) : Byte := w.extractLsb' 0 8

/-- `cmd[31:8]`, the reserved bits of format B (R51). -/
def reservedB (w : CmdWord) : BitVec 24 := w.extractLsb' 8 24

/-- One row of the opcode map: a word `w` selects the row when `w & mask = match` (R53). -/
structure OpRow where
  mnemonic : Mnemonic
  matchWord : CmdWord
  mask : CmdWord
  deriving DecidableEq, Repr

/-- The row selects the word. -/
def OpRow.selects (r : OpRow) (w : CmdWord) : Bool := w &&& r.mask == r.matchWord

/-- The complete opcode map of 30_encoding.md R53. -/
def opcodeMap : List OpRow :=
  [ ⟨.NOP,   0x0000000000, 0xFFFFFFFFFF⟩,
    ⟨.BUILD, 0x0100000000, 0xFFFFFFFFFF⟩,
    ⟨.RDTAB, 0x0200000000, 0xFFFFFFFF00⟩,
    ⟨.INIT,  0x1000000000, 0xFFFFFFFFFF⟩,
    ⟨.LOAD,  0x1100000000, 0xFF00000000⟩,
    ⟨.UPD,   0x1200000000, 0xFFFFFFFF00⟩,
    ⟨.UPDI,  0x1300000000, 0xFFFFFFFF00⟩,
    ⟨.IDX,   0x1400000000, 0xFFFFFFFF00⟩,
    ⟨.RDCRC, 0x1500000000, 0xFFFFFFFFFF⟩,
    ⟨.RDST,  0x2000000000, 0xFFFFFFFFFF⟩ ]

/-- A word is legal when some row selects it (R54). -/
def legalWord (w : CmdWord) : Bool := opcodeMap.any (·.selects w)

/-- Why a word is illegal (30_encoding.md R54): both are refused with the same `ERR_ILLEGAL`. -/
inductive Illegal where
  /-- Its opcode is none of the ten. -/
  | undefinedOpcode (op : Byte)
  /-- Its opcode is defined and a reserved argument bit is set. -/
  | reservedBitSet (m : Mnemonic)
  deriving DecidableEq, Repr

/-- Format Z: all 32 argument bits are reserved and must be 0 (R51). -/
def decodeZ (w : CmdWord) (i : Instr) : Except Illegal Instr :=
  if argOf w = 0 then .ok i else .error (.reservedBitSet i.mnemonic)

/-- Format B: `cmd[31:8]` is reserved and must be 0, `cmd[7:0]` is the operand (R51). -/
def decodeB (w : CmdWord) (f : Byte → Instr) : Except Illegal Instr :=
  if reservedB w = 0 then .ok (f (byteOf w)) else .error (.reservedBitSet (f (byteOf w)).mnemonic)

/-- Format W: `cmd[31:0]` is the operand; no bit is reserved (R51). -/
def decodeW (w : CmdWord) (f : Word → Instr) : Except Illegal Instr := .ok (f (argOf w))

/-- The decoder (30_encoding.md R50 to R54): the opcode alone tells the format. It looks at the word alone, never at
the state (60_exceptions.md R141). -/
def decode (w : CmdWord) : Except Illegal Instr :=
  match opOf w with
  | 0x00#8 => decodeZ w .nop
  | 0x01#8 => decodeZ w .build
  | 0x02#8 => decodeB w .rdtab
  | 0x10#8 => decodeZ w .init
  | 0x11#8 => decodeW w .load
  | 0x12#8 => decodeB w .upd
  | 0x13#8 => decodeB w .updi
  | 0x14#8 => decodeB w .idx
  | 0x15#8 => decodeZ w .rdcrc
  | 0x20#8 => decodeZ w .rdst
  | op => .error (.undefinedOpcode op)

/-- The word of format W: opcode `op` over the argument `v` (R50, R51). -/
def encodeW (op : Byte) (v : Word) : CmdWord := op ++ v

/-- The word of format Z: the argument is 0 (R51). -/
def encodeZ (op : Byte) : CmdWord := encodeW op 0

/-- The word of format B: the operand `b` below 24 reserved zero bits (R51). -/
def encodeB (op b : Byte) : CmdWord := encodeW op (0#24 ++ b)

/-- The opcode column of 30_encoding.md R53. -/
def Mnemonic.opcode : Mnemonic → Byte
  | .NOP => 0x00
  | .BUILD => 0x01
  | .RDTAB => 0x02
  | .INIT => 0x10
  | .LOAD => 0x11
  | .UPD => 0x12
  | .UPDI => 0x13
  | .IDX => 0x14
  | .RDCRC => 0x15
  | .RDST => 0x20

/-- The command word of a command (30_encoding.md R51, R53). -/
def encode : Instr → CmdWord
  | .nop => encodeZ Mnemonic.NOP.opcode
  | .build => encodeZ Mnemonic.BUILD.opcode
  | .rdtab b => encodeB Mnemonic.RDTAB.opcode b
  | .init => encodeZ Mnemonic.INIT.opcode
  | .load v => encodeW Mnemonic.LOAD.opcode v
  | .upd b => encodeB Mnemonic.UPD.opcode b
  | .updi x => encodeB Mnemonic.UPDI.opcode x
  | .idx b => encodeB Mnemonic.IDX.opcode b
  | .rdcrc => encodeZ Mnemonic.RDCRC.opcode
  | .rdst => encodeZ Mnemonic.RDST.opcode

/-- The commands a pseudo-instruction stands for, in order (30_encoding.md R60). -/
def Pseudo.expand : Pseudo → List Instr
  | .upds bytes => bytes.map .upd
  | .crcstr bytes => .init :: bytes.map .upd
  | .lastidx front last => .init :: (front.map .upd ++ [.idx last])
  | .adv x => [.updi x]

/-- The word a table row's bits stand for: spec/opcode_table.json numbers the bits of the one 40-bit command word, bit 0
its least significant bit, and the bits above `nbits` are 0. -/
def tableWord (nbits w : Nat) : CmdWord := BitVec.ofNat 40 (w % 2 ^ nbits)

/-- The command the decoder reads from an opcode-table word; `none` where it refuses the word, or where the word does
not fit the one command length of 40 bits (R50; log 11). -/
def decodeTableWord (nbits w : Nat) : Option Instr :=
  if w % 2 ^ nbits < 2 ^ 40 then (decode (tableWord nbits w)).toOption else none

end Sys2Proof
end

