-- ==== Sys2Proof/Machine/State.lean ====
section
/-! DEFINITION. The block's state (10_state.md), the reasons a step can stop, and the state after reset. -/

namespace Sys2Proof.Machine

/-- The table memory: (entry index, 32-bit entry) pairs. The unit of addressing is one whole entry (20_memory.md R30,
R34), so a cell is an entry and not a byte (log 6). Canonical form: `Memory.wf` in Machine/Ops.lean. -/
abbrev Memory := List (Nat × Word)

/-- What reaches the block at its ports, as seen at the level of commands (70_reset_and_hazards.md R160, R161; log 9). -/
inductive PortInput where
  /-- The host presents this word and the block accepts it. -/
  | command (w : CmdWord)
  /-- `rst = 1` for one cycle or more while no command executes. -/
  | reset
  /-- This word is accepted and `rst = 1` comes before its response, or in the cycle that would show it, in which the
  block "produces no response" (R160, R161; log 9). -/
  | commandCutByReset (w : CmdWord)
  deriving DecidableEq, Repr

/-- The state. `crc`, `table`, `tvalid` and `err` are the block's (10_state.md section 1); `rsp` is its response port;
`inputs` is the model's own (log 1). `STATUS` is a view, `statusWord` in Machine/Flags.lean (R15). -/
structure State where
  /-- `CRC` (10_state.md R10). -/
  crc : Word
  /-- `TABLE` (R11). An entry that is not listed has no value (R21; log 5). -/
  table : Memory
  /-- `TVALID` (R13). -/
  tvalid : Bool
  /-- `ERR` (R14). -/
  err : BitVec 4
  /-- `rsp_valid` and `rsp` (70_reset_and_hazards.md R160): the response of the command this step completed (log 2). -/
  rsp : Option RspWord
  /-- What the host presents next, oldest first (R16, R19; log 1). -/
  inputs : List PortInput
  deriving DecidableEq, Repr

/-- Why a step stops. -/
inductive Fault where
  /-- Raised by a table read (RDTAB, UPD, UPDI) that finds `TVALID = 1` and no value at the index. 10_state.md R12 says
  that no such state exists and `State.Inv` (Safety.lean) rules it out, so no run raises it. Safe: the model stops
  where it would otherwise have to invent an entry (log 5). -/
  | tableEntryUnwritten (index : Byte)
  deriving DecidableEq, Repr

/-- Why an instruction has no meaning. -/
inductive Refusal where
  /-- Raised by an arm of `exec` whose instruction is not modelled yet; no arm is. Safe. -/
  | notModelled (mnemonic : String)
  deriving DecidableEq, Repr

/-- The state after reset: `CRC = 0xFFFFFFFF` (10_state.md R20), no entry of `TABLE` has a value (R21), `TVALID = 0` and
`ERR = 0` (R22), not busy and no response (R23, 70 R160). Nothing is presented (DESIGN CHOICE, safe, log 1). -/
def State.reset : State where
  crc := 0xFFFFFFFF
  table := []
  tvalid := false
  err := 0
  rsp := none
  inputs := []

end Sys2Proof.Machine
end

