-- ==== Sys2Proof/Machine/Flags.lean ====
section
/-! DEFINITION. The status fields: response codes, the sticky error field and the STATUS view (10_state.md R13 to R15,
30_encoding.md R56, R57). No arithmetic result sets a flag anywhere in the block. -/

namespace Sys2Proof.Machine

/-- The code `OK` of a command that executed (30_encoding.md R57). -/
def okCode : BitVec 4 := 0x0

/-- The block's two errors (60_exceptions.md R140). -/
inductive BlockError where
  /-- `ERR_ILLEGAL`: the word encodes no command (R141). -/
  | illegal
  /-- `ERR_NOTABLE`: the command reads the table and `TVALID = 0` (R142). -/
  | noTable
  deriving DecidableEq, Repr

/-- The 4-bit code of an error (30_encoding.md R57); codes 3 to 15 are never produced. -/
def BlockError.code : BlockError → BitVec 4
  | .illegal => 0x1
  | .noTable => 0x2

/-- The response word: `code` in bits 35:32, `data` in bits 31:0 (30_encoding.md R56). -/
def rspWord (code : BitVec 4) (data : Word) : RspWord := code ++ data

/-- `rsp[35:32]` (30_encoding.md R56). -/
def rspCode (r : RspWord) : BitVec 4 := r.extractLsb' 32 4

/-- `rsp[31:0]` (30_encoding.md R56). -/
def rspData (r : RspWord) : Word := r.extractLsb' 0 32

/-- The error field after a refusal: `if ERR = 0 then ERR <- code` (60_exceptions.md R145). -/
def stickyErr (err code : BitVec 4) : BitVec 4 := if err = 0 then code else err

/-- `STATUS = {24 zero bits, ERR[3:0], 3 zero bits, TVALID}` (10_state.md R15). -/
def statusWord (tvalid : Bool) (err : BitVec 4) : Word := 0#24 ++ err ++ 0#3 ++ BitVec.ofBool tvalid

/-- The STATUS view of a state (10_state.md R15). -/
def State.status (s : State) : Word := statusWord s.tvalid s.err

end Sys2Proof.Machine
end

