-- ==== Sys2Proof/Machine/Params.lean ====
section
/-! DEFINITION. The constants the document fixes (00_scope.md R5, 10_state.md R18). They are constants of the circuit:
no command reads them as data or changes them. -/

namespace Sys2Proof.Machine

/-- `POLY`, the reflected polynomial (00_scope.md R5). -/
def POLY : Word := 0xEDB88320

/-- `INITV`, the register value a string starts from (00_scope.md R5). -/
def INITV : Word := 0xFFFFFFFF

/-- `N`, the number of table entries (00_scope.md R5). -/
def ENTRIES : Nat := 256

/-- `STEPS`, the shift steps per table entry (00_scope.md R5). -/
def STEPS : Nat := 8

end Sys2Proof.Machine
end

