-- ==== Sys2Proof/Machine/Operands.lean ====
section
/-! DEFINITION. The operand forms: zero extension, the two ways to form a table index (20_memory.md R31), and the XOR
accumulation of an update (41_register_update.md R93). -/

namespace Sys2Proof.Machine

/-- `zext_32(b)` (00_scope.md R8, 30_encoding.md R52). -/
def zext32 (b : Byte) : Word := b.setWidth 32

/-- The direct index of RDTAB and UPDI: the operand as it stands (20_memory.md R31). -/
def directIndex (b : Byte) : Byte := b

/-- The computed index of UPD and IDX, `(CRC ^ zext_32(b))[7:0]` (20_memory.md R31; stage 1 of 41 R93). -/
def computedIndex (crc : Word) (b : Byte) : Byte := (crc ^^^ zext32 b).extractLsb' 0 8

/-- The new register of an update that read the table word `t`: `(CRC >> 8) ^ t`, a logical shift (stage 3 of
41_register_update.md R93). -/
def accumulate (crc t : Word) : Word := (crc >>> 8) ^^^ t

end Sys2Proof.Machine
end

