-- ==== Sys2Proof/Machine/Ops.lean ====
section
/-! DEFINITION. The named operations over the state: field updates, the table memory, a command's response, the refusal
of a command (the block's only kind of exception), the guarded table read, and reset. -/

namespace Sys2Proof.Machine

/-! Field updates. -/

/-- `CRC <- v`. -/
def State.setCrc (s : State) (v : Word) : State := { s with crc := v }
/-- The table memory becomes `m`. -/
def State.setTable (s : State) (m : Memory) : State := { s with table := m }
/-- `TVALID <- b`. -/
def State.setTvalid (s : State) (b : Bool) : State := { s with tvalid := b }
/-- `ERR <- e`. -/
def State.setErr (s : State) (e : BitVec 4) : State := { s with err := e }
/-- The response port holds `r`. -/
def State.setRsp (s : State) (r : Option RspWord) : State := { s with rsp := r }
/-- The inputs still to come are `l`. -/
def State.setInputs (s : State) (l : List PortInput) : State := { s with inputs := l }

/-! The table memory (20_memory.md R30, R36). -/

/-- The canonical form: indices strictly rising, all below 256. An unlisted entry has no value, so no listed entry can
equal what an unlisted one reads as (log 5). -/
abbrev Memory.wf (m : Memory) : Prop := m.Pairwise (fun a b => a.1 < b.1) ∧ ∀ c ∈ m, c.1 < ENTRIES

/-- `MemRead(i, 4)`: the whole entry, or no value where nothing has written it (00_scope.md R9, 10_state.md R21; log 5). -/
def Memory.read : Memory → Nat → Option Word
  | [], _ => none
  | (k, v) :: m, i => if k = i then some v else Memory.read m i

/-- `MemWrite(i, 4, v)` (00_scope.md R9). It keeps the canonical form. -/
def Memory.write : Memory → Nat → Word → Memory
  | [], i, v => [(i, v)]
  | (k, u) :: m, i, v =>
    if i < k then (i, v) :: (k, u) :: m
    else if i = k then (i, v) :: m
    else (k, u) :: Memory.write m i v

/-- `TABLE[i]` of a state. -/
def State.entryAt (s : State) (i : Byte) : Option Word := s.table.read i.toNat

/-! Ending a command. -/

/-- `respond(OK, d)` (00_scope.md R9, 30_encoding.md R56). -/
def State.respond (s : State) (d : Word) : State := s.setRsp (some (rspWord okCode d))

/-- `raise ERR_x`, the block's one way to take an exception: `ERR` records the code if it was 0, the response is
`{code, 0}`, and nothing else changes (60_exceptions.md R144, R145, R147). "The next command executes normally"
(R144), so this is a next state and no stop (log 4 on the spec's word fault). There is no return from it (R148). -/
def State.raise (s : State) (e : BlockError) : State :=
  (s.setErr (stickyErr s.err e.code)).setRsp (some (rspWord e.code 0))

/-- A command that reads the table: refused with `ERR_NOTABLE` when `TVALID = 0` (60_exceptions.md R142); otherwise the
entry at `i` is read and the command ends in `k` of it. A built table has every entry (10_state.md R12). -/
def withEntry (s : State) (i : Byte) (k : Word → State) : Host.Outcome State Fault Refusal :=
  if s.tvalid = false then .next (s.raise .noTable)
  else match s.entryAt i with
    | some t => .next (k t)
    | none => .fault (.tableEntryUnwritten i)

/-- An update with the table word `t`: the register takes `(CRC >> 8) ^ t`, which is also the response
(41_register_update.md R92, R94). -/
def State.update (s : State) (t : Word) : State :=
  (s.setCrc (accumulate s.crc t)).respond (accumulate s.crc t)

/-- `rst = 1`: the block is in its reset state and produces no response (70_reset_and_hazards.md R160 to R162). What the
host presents later is the host's and stays (log 9). -/
def State.applyReset (s : State) : State := State.reset.setInputs s.inputs

end Sys2Proof.Machine
end

