-- ==== Sys2Proof/Machine/RegisterCommands.lean ====
section
/-! DEFINITION. The register update family: INIT, LOAD, RDCRC, UPD, UPDI, IDX (41_register_update.md). The register is
stored and returned raw, never complemented (R98). -/

namespace Sys2Proof.Machine

/-- INIT (R90): `CRC <- 0xFFFFFFFF`, also the response. -/
def execInit (s : State) : Host.Outcome State Fault Refusal :=
  .next ((s.setCrc INITV).respond INITV)

/-- LOAD (R91): `CRC <- v`, also the response. -/
def execLoad (v : Word) (s : State) : Host.Outcome State Fault Refusal :=
  .next ((s.setCrc v).respond v)

/-- UPD (R92): update with the entry at the computed index. -/
def execUpd (b : Byte) (s : State) : Host.Outcome State Fault Refusal :=
  withEntry s (computedIndex s.crc b) fun t => s.update t

/-- UPDI (R94): update with the entry at the direct index. -/
def execUpdi (x : Byte) (s : State) : Host.Outcome State Fault Refusal :=
  withEntry s (directIndex x) fun t => s.update t

/-- IDX (R95): the response is the index an update would use; the table is not read. -/
def execIdx (b : Byte) (s : State) : Host.Outcome State Fault Refusal :=
  .next (s.respond (zext32 (computedIndex s.crc b)))

/-- RDCRC (R96): the response is the raw register. -/
def execRdcrc (s : State) : Host.Outcome State Fault Refusal :=
  .next (s.respond s.crc)

end Sys2Proof.Machine
end

