-- ==== Sys2Proof/Machine/SystemCommands.lean ====
section
/-! DEFINITION. The system family: NOP, RDST (42_system.md). -/

namespace Sys2Proof.Machine

/-- NOP (R110): no state written, response 0. -/
def execNop (s : State) : Host.Outcome State Fault Refusal :=
  .next (s.respond 0)

/-- RDST (R111): the response is STATUS; reading does not clear `ERR`. -/
def execRdst (s : State) : Host.Outcome State Fault Refusal :=
  .next (s.respond s.status)

end Sys2Proof.Machine
end

