-- ==== Sys2Proof/Machine/Generator.lean ====
section
/-! DEFINITION. The table generator (40_table_generator.md R70 to R72). -/

namespace Sys2Proof.Machine

/-- `GSTEP`, the shift-and-XOR step: bit 0 before the shift decides (40_table_generator.md R70). -/
def gstep (g : Word) : Word := if g.getLsbD 0 then (g >>> 1) ^^^ POLY else g >>> 1

/-- "repeat n times: g <- GSTEP(g)" (40_table_generator.md R72). -/
def gsteps : Nat → Word → Word
  | 0, g => g
  | n + 1, g => gsteps n (gstep g)

/-- `ENTRY(i)`: eight generator steps from the index (40_table_generator.md R71). -/
def entry (i : Byte) : Word := gsteps STEPS (zext32 i)

/-- Writes `ENTRY(i)` to the entries `i < n`. The order of the writes cannot be observed and is free to a model
(40_table_generator.md R72; from the top down here, log 7). Irreducible so that no proof unfolds 256 writes:
Laws/Memory.lean says what the loop leaves. -/
@[irreducible] def buildBelow : Nat → Memory → Memory
  | 0, m => m
  | n + 1, m => buildBelow n (m.write n (entry (BitVec.ofNat 8 n)))

/-- The table BUILD leaves (40_table_generator.md R72): the loop writes every one of the 256 entries, so what the table
held before does not matter and the loop starts from a memory that lists nothing (log 7). -/
def builtTable : Memory := buildBelow ENTRIES []

end Sys2Proof.Machine
end

