-- ==== Sys2Proof/Machine/TableCommands.lean ====
section
/-! DEFINITION. The table generator family: BUILD, RDTAB (40_table_generator.md). -/

namespace Sys2Proof.Machine

/-- BUILD (R72): fill the table and set `TVALID`; with `TVALID = 1` it has no effect (R73). Response 0 either way. -/
def execBuild (s : State) : Host.Outcome State Fault Refusal :=
  if s.tvalid then .next (s.respond 0)
  else .next (((s.setTable builtTable).setTvalid true).respond 0)

/-- RDTAB (R74): the response is the entry at the direct index. -/
def execRdtab (b : Byte) (s : State) : Host.Outcome State Fault Refusal :=
  withEntry s (directIndex b) fun t => s.respond t

end Sys2Proof.Machine
end

