-- ==== Sys2Proof/Machine/Dispatch.lean ====
section
/-! DEFINITION. One arm per command: its meaning (30_encoding.md R61 step 3). -/

namespace Sys2Proof.Machine

def exec (i : Instr) (s : State) : Host.Outcome State Fault Refusal :=
  match i with
  | .nop => Sys2Proof.Machine.execNop s
  | .build => Sys2Proof.Machine.execBuild s
  | .rdtab b => Sys2Proof.Machine.execRdtab b s
  | .init => Sys2Proof.Machine.execInit s
  | .load v => Sys2Proof.Machine.execLoad v s
  | .upd b => Sys2Proof.Machine.execUpd b s
  | .updi x => Sys2Proof.Machine.execUpdi x s
  | .idx b => Sys2Proof.Machine.execIdx b s
  | .rdcrc => Sys2Proof.Machine.execRdcrc s
  | .rdst => Sys2Proof.Machine.execRdst s

end Sys2Proof.Machine
end

