-- ==== Sys2Proof/Machine/Accept.lean ====
section
/-! DEFINITION. What the block does with what reaches its ports: an accepted command word, a reset, or nothing. -/

namespace Sys2Proof.Machine

/-- An accepted command word (30_encoding.md R61): decode it; an illegal word is refused with `ERR_ILLEGAL` before any
state is read (60_exceptions.md R141, R143); otherwise execute it. -/
def acceptCommand (w : CmdWord) (s : State) : Host.Outcome State Fault Refusal :=
  match decode w with
  | .error _ => .next (s.raise .illegal)
  | .ok i => exec i s

/-- One input. A command cut by reset leaves the reset state and no response, whatever it had done
(70_reset_and_hazards.md R161). -/
def takeInput (p : PortInput) (s : State) : Host.Outcome State Fault Refusal :=
  match p with
  | .command w => acceptCommand w s
  | .reset => .next s.applyReset
  | .commandCutByReset _ => .next s.applyReset

/-- Nothing is presented: the block is idle and keeps all its state (60_exceptions.md R150, 70 R165, R166); no response
is on the port (log 3). -/
def State.idle (s : State) : State := s.setRsp none

/-- The block with the host's next input taken off the front. -/
def fetchInput (s : State) : Option (PortInput × State) :=
  match s.inputs with
  | [] => none
  | p :: rest => some (p, s.setInputs rest)

end Sys2Proof.Machine
end

