-- ==== Sys2Proof/Machine/Step.lean ====
section
/-! DEFINITION. One step: the next input the host presents, or idling. -/

namespace Sys2Proof.Machine

/-- One step. "The next command executed is always the next one the host presents" (30_encoding.md R61). -/
def step (s : State) : Host.Outcome State Fault Refusal :=
  match fetchInput s with
  | none => .next s.idle
  | some (p, s') => takeInput p s'

/-- The host presents this opcode-table word next. The block has no program memory (10_state.md R16): a program comes
from the host, word by word, and this stands for that (log 11). -/
def State.withFetchWord (s : State) (nbits w : Nat) : State :=
  s.setInputs (.command (tableWord nbits w) :: s.inputs)

end Sys2Proof.Machine
end

