-- ==== Sys2Proof/Machine/Strings.lean ====
section
/-! DEFINITION. The raw register of a byte string, as functions of the table (41_register_update.md R97, R98). They are
what a host expects of the block; no command's meaning uses them. -/

namespace Sys2Proof.Machine

/-- `U(r, c) = (r >> 8) ^ T[(r ^ zext_32(c))[7:0]]` for a table `T` (R97). -/
def updateWith (T : Byte → Word) (r : Word) (c : Byte) : Word :=
  (r >>> 8) ^^^ T ((r ^^^ c.setWidth 32).extractLsb' 0 8)

/-- `R <- T[x] ^ (R >> 8)`, the same update with the index given (R94). -/
def advanceWith (T : Byte → Word) (r : Word) (x : Byte) : Word := T x ^^^ (r >>> 8)

/-- The register after the bytes of a string, first byte first, from `r`. -/
def registerFrom (T : Byte → Word) (r : Word) (bytes : List Byte) : Word := bytes.foldl (updateWith T) r

/-- `F(s)`, the raw register of a string (R97). -/
def rawRegister (T : Byte → Word) (bytes : List Byte) : Word := registerFrom T 0xFFFFFFFF bytes

/-- The index the last update of the non-empty string `front ++ [last]` uses (R97, `LASTIDX`). -/
def lastIndex (T : Byte → Word) (front : List Byte) (last : Byte) : Byte :=
  (rawRegister T front ^^^ last.setWidth 32).extractLsb' 0 8

/-- The published hash of a string, the complement the host forms (R98). -/
def publishedHash (T : Byte → Word) (bytes : List Byte) : Word := ~~~ rawRegister T bytes

/-- The decimal digits of a number, least significant first; `fuel` bounds their count. -/
def digitsRev : Nat → Nat → List Byte
  | 0, _ => []
  | fuel + 1, n =>
    BitVec.ofNat 8 (0x30 + n % 10) :: (if n / 10 = 0 then [] else digitsRev fuel (n / 10))

/-- `digits(i)`: the ASCII decimal string of a non-negative integer, most significant digit first, no leading zeros; the
integer 0 is the one-byte string "0" (R97, 20_memory.md R32). -/
def decimal (i : Nat) : List Byte := (digitsRev (i + 1) i).reverse

end Sys2Proof.Machine
end

