-- ==== Sys2Proof/Machine/Cracker.lean ====
section
/-! DEFINITION. HOST SOFTWARE, not the block: the preimage cracker that drives it (48_host_cracker.md R120 to R131, with
the resolutions C2 to C6 of 90_conflicts.md). 00_scope.md R4(b) leaves it out of the hardware; no definition of the block
uses anything of this file (log 14). `T` is the host's copy of the table, read with RDTAB (R131); for a built block it is
`entry`. -/

namespace Sys2Proof.Machine

/-- The digit's value, either case of a letter (R120 "case-insensitive"). -/
def hexValue (c : Char) : Option Nat :=
  if 48 ≤ c.toNat ∧ c.toNat ≤ 57 then some (c.toNat - 48)
  else if 65 ≤ c.toNat ∧ c.toNat ≤ 70 then some (c.toNat - 55)
  else if 97 ≤ c.toNat ∧ c.toNat ≤ 102 then some (c.toNat - 87)
  else none

/-- A base-16 numeral read from its first, most significant digit on, continuing from `acc`. -/
def hexNumeral : Nat → List Char → Option Nat
  | acc, [] => some acc
  | acc, c :: cs => match hexValue c with
    | some d => hexNumeral (acc * 16 + d) cs
    | none => none

/-- TargetHash (R120): exactly 8 hex digits, first character most significant (PRESUMED by the spec itself, GK3; log 13).
`none` is the caller-side validation error of R120. -/
def parseHash (text : List Char) : Option Word :=
  if text.length = 8 then (hexNumeral 0 text).map (BitVec.ofNat 32) else none

/-- The search over the table rows from index `256 - n` on for the one whose top byte is `t`. -/
def findRowFrom (T : Byte → Word) (t : Byte) : Nat → Option Byte
  | 0 => none
  | n + 1 =>
    if (T (BitVec.ofNat 8 (255 - n))).extractLsb' 24 8 = t then some (BitVec.ofNat 8 (255 - n))
    else findRowFrom T t n

/-- "search all 256 table rows for the one whose top byte (value >> 24) equals" `t` (R121). -/
def findRow (T : Byte → Word) (t : Byte) : Option Byte := findRowFrom T t 256

/-- `suffix_index[0..3]` (R121). -/
structure SuffixIndex where
  s0 : Byte
  s1 : Byte
  s2 : Byte
  s3 : Byte
  deriving DecidableEq, Repr

/-- One step of the inversion at shift `k`: the index of the row and the next `ht` (R121). -/
def invertStep (T : Byte → Word) (k : Nat) (ht : Word) : Option (Byte × Word) :=
  match findRow T ((ht >>> (8 * k)).extractLsb' 0 8) with
  | some j => some (j, ht ^^^ (T j >>> ((3 - k) * 8)))
  | none => none

/-- The four steps `k = 3, 2, 1, 0` from `ht`, with the last `ht` (R121). `none` is the failure "no match found". -/
def invertRegister (T : Byte → Word) (ht : Word) : Option (SuffixIndex × Word) :=
  match invertStep T 3 ht with
  | none => none
  | some (j0, h0) => match invertStep T 2 h0 with
    | none => none
    | some (j1, h1) => match invertStep T 1 h1 with
      | none => none
      | some (j2, h2) => match invertStep T 0 h2 with
        | none => none
        | some (j3, h3) => some (⟨j0, j1, j2, j3⟩, h3)

/-- Suffix index recovery from a published hash (R121): `ht = H ^ 0xFFFFFFFF`. -/
def recoverIndices (T : Byte → Word) (h : Word) : Option SuffixIndex :=
  (invertRegister T (h ^^^ 0xFFFFFFFF)).map (·.1)

/-- The last-index filter (R122): the last update of `digits(i)` uses `suffix_index[3]`. The filter is required
(90_conflicts.md C3). -/
def passesFilter (T : Byte → Word) (si : SuffixIndex) (i : Nat) : Bool :=
  match (decimal i).reverse with
  | [] => false
  | last :: front => lastIndex T front.reverse last == si.s3

/-- The byte is an ASCII digit, the only signal of a correct prefix (R123, R127). -/
def isDigit (b : Byte) : Bool := decide (0x30 ≤ b.toNat ∧ b.toNat ≤ 0x39)

/-- The validator's steps with the indices still to come, from register `r`: the recovered characters, or `none` for
"the candidate prefix is rejected" (R123). -/
def validateFrom (T : Byte → Word) : List Byte → Word → Option (List Byte)
  | [], _ => some []
  | x :: xs, r =>
    if isDigit (r.extractLsb' 0 8 ^^^ x) then
      (validateFrom T xs (advanceWith T r x)).map ((r.extractLsb' 0 8 ^^^ x) :: ·)
    else none

/-- The validator, "deep check" (R123): steps 2, 1, 0, three bytes. -/
def validate (T : Byte → Word) (si : SuffixIndex) (i : Nat) : Option (List Byte) :=
  validateFrom T [si.s2, si.s1, si.s0] (rawRegister T (decimal i))

/-- The results of `crack` (R125, R128). -/
inductive CrackResult where
  /-- The solution `digits(i) + suffix_digits`. -/
  | solution (bytes : List Byte)
  /-- The ceiling is exhausted with no match. -/
  | notFound
  /-- The inversion found no matching row. -/
  | invalidHash
  deriving DecidableEq, Repr

/-- The search from candidate `i` on over `n` candidates (R125 steps 2 to 5). -/
def searchFrom (T : Byte → Word) (si : SuffixIndex) : Nat → Nat → CrackResult
  | 0, _ => .notFound
  | n + 1, i =>
    if passesFilter T si i then
      match validate T si i with
      | some digits => .solution (decimal i ++ digits)
      | none => searchFrom T si n (i + 1)
    else searchFrom T si n (i + 1)

/-- `crack` (R125) with the ceiling as a parameter (93 HS1; the reference value is 100,000,000). -/
def crack (T : Byte → Word) (ceiling : Nat) (h : Word) : CrackResult :=
  match recoverIndices T h with
  | none => .invalidHash
  | some si => searchFrom T si ceiling 0

/-- One worker's search over its own sub-range, `n` candidates from `i` on: its smallest hit, the prefix with the solution
(R129). -/
def workerHit (T : Byte → Word) (si : SuffixIndex) : Nat → Nat → Option (Nat × List Byte)
  | 0, _ => none
  | n + 1, i =>
    if passesFilter T si i then
      match validate T si i with
      | some digits => some (i, decimal i ++ digits)
      | none => workerHit T si n (i + 1)
    else workerHit T si n (i + 1)

/-- The hit with the smaller prefix (R129 "pick the minimum"). -/
def smallerHit : Option (Nat × List Byte) → Option (Nat × List Byte) → Option (Nat × List Byte)
  | none, h => h
  | some a, none => some a
  | some a, some b => if a.1 ≤ b.1 then some a else some b

/-- The parallel search (R129): each worker owns a range (first candidate, count), and the host collects all hits and
picks the minimum. How many workers there are and which ranges they own is the host's policy (93 HS2). -/
def crackWorkers (T : Byte → Word) (ranges : List (Nat × Nat)) (h : Word) : CrackResult :=
  match recoverIndices T h with
  | none => .invalidHash
  | some si => match ranges.foldr (fun r best => smallerHit (workerHit T si r.2 r.1) best) none with
    | some (_, bytes) => .solution bytes
    | none => .notFound

/-- The commands of a candidate up to its register, as a fixed list (R131): the host issues the last one, `UPD 'cn'`, only
when the IDX data equals `suffix_index[3]`. Machine/HostProgram.lean is the program that makes that choice. -/
def candidateCommands (front : List Byte) (last : Byte) : List Instr :=
  (Pseudo.lastidx front last).expand ++ [.upd last]

/-- The commands of one validator step: read `R[7:0]`, then advance by the step's index (R123, R131). -/
def validatorStepCommands (x : Byte) : List Instr := [.idx 0x00, .updi x]

end Sys2Proof.Machine
end

