-- ==== Sys2Proof/Machine/Assembler.lean ====
section
/-! DEFINITION. The assembler syntax and the printed forms of words (30_encoding.md R59, R62; log 12). The block never
sees text. -/

namespace Sys2Proof.Machine

/-- The mnemonic in upper case (R59). -/
def mnemonicText : Mnemonic → List Char
  | .NOP => ['N', 'O', 'P']
  | .BUILD => ['B', 'U', 'I', 'L', 'D']
  | .RDTAB => ['R', 'D', 'T', 'A', 'B']
  | .INIT => ['I', 'N', 'I', 'T']
  | .LOAD => ['L', 'O', 'A', 'D']
  | .UPD => ['U', 'P', 'D']
  | .UPDI => ['U', 'P', 'D', 'I']
  | .IDX => ['I', 'D', 'X']
  | .RDCRC => ['R', 'D', 'C', 'R', 'C']
  | .RDST => ['R', 'D', 'S', 'T']

/-- The ten mnemonics. -/
def allMnemonics : List Mnemonic := [.NOP, .BUILD, .RDTAB, .INIT, .LOAD, .UPD, .UPDI, .IDX, .RDCRC, .RDST]

/-- The mnemonic a text is. -/
def readMnemonic (text : List Char) : Option Mnemonic := allMnemonics.find? (fun m => mnemonicText m == text)

def isUpper (c : Char) : Bool := decide (65 ≤ c.toNat ∧ c.toNat ≤ 90)
def isDecimal (c : Char) : Bool := decide (48 ≤ c.toNat ∧ c.toNat ≤ 57)
def isHex (c : Char) : Bool := (hexValue c).isSome

/-- A decimal numeral. -/
def decimalNumeral (cs : List Char) : Nat := cs.foldl (fun n c => n * 10 + (c.toNat - 48)) 0

/-- The most digits a hexadecimal operand of the format may have (R59). -/
def Format.hexDigits : Format → Nat
  | .Z => 0
  | .B => 2
  | .W => 8

/-- An operand at the front of the text, and what follows it (R59): a quoted ASCII character (format B), a hexadecimal
number, or a decimal number (format B). R59 gives a decimal operand its range `0` to `255` only; how many digits it has is
the model's choice: any count, leading zeros included, so `UPD 007` is `UPD 7` (DESIGN CHOICE, log 12). -/
def readOperand (f : Format) (text : List Char) : Option (Nat × List Char) :=
  match text with
  | '\'' :: c :: '\'' :: rest => if f = .B ∧ c.toNat < 128 then some (c.toNat, rest) else none
  | '0' :: 'x' :: rest =>
    let ds := rest.takeWhile isHex
    if ds = [] ∨ Format.hexDigits f < ds.length then none
    else (hexNumeral 0 ds).map fun n => (n, rest.dropWhile isHex)
  | _ =>
    let ds := text.takeWhile isDecimal
    if f = .B ∧ ds ≠ [] then some (decimalNumeral ds, text.dropWhile isDecimal) else none

/-- Only blanks and a comment may follow: "A comment runs from `;` to the end of the line" (R59). -/
def onlyComment (text : List Char) : Bool :=
  match text.dropWhile (· == ' ') with
  | [] => true
  | c :: _ => c == ';'

/-- The command a well-formed source line denotes. -/
def SourceLine.toInstr (l : SourceLine) : Option Instr :=
  if l.wellFormed then
    match l.mnemonic, l.operand with
    | .NOP, _ => some .nop
    | .BUILD, _ => some .build
    | .RDTAB, some n => some (.rdtab (BitVec.ofNat 8 n))
    | .INIT, _ => some .init
    | .LOAD, some n => some (.load (BitVec.ofNat 32 n))
    | .UPD, some n => some (.upd (BitVec.ofNat 8 n))
    | .UPDI, some n => some (.updi (BitVec.ofNat 8 n))
    | .IDX, some n => some (.idx (BitVec.ofNat 8 n))
    | .RDCRC, _ => some .rdcrc
    | .RDST, _ => some .rdst
    | _, none => none
  else none

/-- The command one line of source text stands for (R59); `none` for a line that is no command. -/
def assembleLine (text : List Char) : Option Instr :=
  let body := text.dropWhile (· == ' ')
  let rest := body.dropWhile isUpper
  match readMnemonic (body.takeWhile isUpper) with
  | none => none
  | some m =>
    if m.format = .Z then
      if onlyComment rest then SourceLine.toInstr ⟨m, none⟩ else none
    else
      match rest with
      | ' ' :: rest' =>
        match readOperand m.format (rest'.dropWhile (· == ' ')) with
        | some (n, tail) => if onlyComment tail then SourceLine.toInstr ⟨m, some n⟩ else none
        | none => none
      | _ => none

/-- The quotation mark around a string. -/
def quote : Char := Char.ofNat 34

/-- A quoted string of ASCII characters at the front of the text, as bytes, and what follows it (R60). Whether a string may
hold a quotation mark is open there; here it ends at the first one and there is no escape, so none can stand in a string
(DESIGN CHOICE, log 12). -/
def readString (text : List Char) : Option (List Byte × List Char) :=
  match text with
  | [] => none
  | c :: rest =>
    let body := rest.takeWhile (· != quote)
    match rest.dropWhile (· != quote) with
    | [] => none
    | _ :: tail =>
      if c = quote ∧ body.all (fun d => decide (d.toNat < 128)) then
        some (body.map fun d => BitVec.ofNat 8 d.toNat, tail)
      else none

/-- A pseudo-instruction of the given name and operand text (R60). LASTIDX needs a non-empty string. -/
def readPseudo (name operand : List Char) : Option Pseudo :=
  if name = ['A', 'D', 'V'] then
    match readOperand .B operand with
    | some (n, tail) => if onlyComment tail ∧ n < 256 then some (.adv (BitVec.ofNat 8 n)) else none
    | none => none
  else
    match readString operand with
    | none => none
    | some (bytes, tail) =>
      if !onlyComment tail then none
      else if name = ['U', 'P', 'D', 'S'] then some (.upds bytes)
      else if name = ['C', 'R', 'C', 'S', 'T', 'R'] then some (.crcstr bytes)
      else if name = ['L', 'A', 'S', 'T', 'I', 'D', 'X'] then
        match bytes.reverse with
        | [] => none
        | last :: front => some (.lastidx front.reverse last)
      else none

/-- The commands of one line (R59, R60): none for a line of blanks or a comment. -/
def assembleAnyLine (text : List Char) : Option (List Instr) :=
  if onlyComment text then some []
  else match assembleLine text with
    | some i => some [i]
    | none =>
      let body := text.dropWhile (· == ' ')
      match body.dropWhile isUpper with
      | ' ' :: rest => (readPseudo (body.takeWhile isUpper) (rest.dropWhile (· == ' '))).map Pseudo.expand
      | _ => none

/-- A program, "one command per line" (R59): the commands the host will present, or `none` if a line is no command. -/
def assemble : List (List Char) → Option (List Instr)
  | [] => some []
  | line :: lines => match assembleAnyLine line, assemble lines with
    | some is, some js => some (is ++ js)
    | _, _ => none

/-- A hexadecimal digit, upper case. -/
def hexChar (n : Nat) : Char := if n < 10 then Char.ofNat (48 + n) else Char.ofNat (55 + n)

/-- A number as `k` hexadecimal digits, most significant first (R59, R62). -/
def hexText : Nat → Nat → List Char
  | 0, _ => []
  | k + 1, n => hexText k (n / 16) ++ [hexChar (n % 16)]

/-- A command word is written as 10 hexadecimal digits (R59). -/
def cmdText (w : CmdWord) : List Char := hexText 10 w.toNat

/-- A response word is written as 9 hexadecimal digits (R59). -/
def rspText (r : RspWord) : List Char := hexText 9 r.toNat

/-- A command as a source line: its mnemonic, and its operand in full-width hexadecimal. -/
def sourceText (i : Instr) : List Char :=
  mnemonicText i.mnemonic ++
    match i.operand with
    | none => []
    | some n => ' ' :: '0' :: 'x' :: hexText (Format.hexDigits i.mnemonic.format) n

end Sys2Proof.Machine
end

