-- ==== Sys2Proof/Machine/HostProgram.lean ====
section
/-! DEFINITION. HOST SOFTWARE, not the block: the cracker run as commands on the block (48_host_cracker.md R131). The host
chooses each command from the responses before it; R131 allows "any sequence with the same results", this is the one it
shows (log 14). -/

namespace Sys2Proof.Machine

/-- The host issues one command and waits for its response: the response data and the block after it. `none` when the
command is refused or the block stops; R131: "No command is refused in this sequence after BUILD". -/
def issue (i : Instr) (s : State) : Option (Word × State) :=
  match acceptCommand (encode i) s with
  | .next t => match t.rsp with
    | some r => if rspCode r = okCode then some (rspData r, t) else none
    | none => none
  | .fault _ => none
  | .refused _ => none

/-- Commands issued one after another, with the data of each. -/
def issueAll : List Instr → State → Option (List Word × State)
  | [], s => some ([], s)
  | i :: is, s => match issue i s with
    | none => none
    | some (d, t) => match issueAll is t with
      | none => none
      | some (ds, u) => some (d :: ds, u)

/-- `RDTAB 0x00` to `RDTAB 0xFF` (R131). -/
def tableReads : List Instr := (List.range ENTRIES).map fun k => .rdtab (BitVec.ofNat 8 k)

/-- "Once: BUILD; RDTAB 0x00 to RDTAB 0xFF, the host keeping the 256 values" (R131). -/
def setUp (s : State) : Option (List Word × State) :=
  match issue .build s with
  | none => none
  | some (_, t) => issueAll tableReads t

/-- The host's copy of the table as a function of the index. The copy has 256 values, so the default is never taken. -/
def hostTable (copy : List Word) (i : Byte) : Word := copy.getD i.toNat 0

/-- The validator on the block with the indices still to come (R123, R131): `IDX 0x00` gives `R[7:0]`, the host computes and
range-checks the byte, `UPDI` advances. The recovered characters, or `none` for a rejected candidate. -/
def validateOnBlock : List Byte → State → Option (Option (List Byte) × State)
  | [], s => some (some [], s)
  | x :: xs, s => match issue (.idx 0x00) s with
    | none => none
    | some (low, t) =>
      if isDigit (low.extractLsb' 0 8 ^^^ x) then
        match issue (.updi x) t with
        | none => none
        | some (_, u) => match validateOnBlock xs u with
          | none => none
          | some (found, v) => some (found.map ((low.extractLsb' 0 8 ^^^ x) :: ·), v)
      else some (none, t)

/-- One candidate (R131): `INIT`, `UPD` of all digits but the last, `IDX` of the last; only if the data equals
`suffix_index[3]`, `UPD` of the last digit and the validator's three steps. -/
def candidateOnBlock (si : SuffixIndex) (i : Nat) (s : State) : Option (Option (List Byte) × State) :=
  match (decimal i).reverse with
  | [] => some (none, s)
  | last :: front => match issueAll (.init :: front.reverse.map .upd) s with
    | none => none
    | some (_, t) => match issue (.idx last) t with
      | none => none
      | some (index, u) =>
        if index = zext32 si.s3 then
          match issue (.upd last) u with
          | none => none
          | some (_, v) => validateOnBlock [si.s2, si.s1, si.s0] v
        else some (none, u)

/-- The search on the block from candidate `i` on over `n` candidates (R125 steps 2 to 5). -/
def searchOnBlock (si : SuffixIndex) : Nat → Nat → State → Option (CrackResult × State)
  | 0, _, s => some (.notFound, s)
  | n + 1, i, s => match candidateOnBlock si i s with
    | none => none
    | some (some digits, t) => some (.solution (decimal i ++ digits), t)
    | some (none, t) => searchOnBlock si n (i + 1) t

/-- "Per hash: rule R121 on the host's copy of the table", then the candidates on the block. -/
def crackOnBlock (copy : List Word) (ceiling : Nat) (h : Word) (s : State) : Option (CrackResult × State) :=
  match recoverIndices (hostTable copy) h with
  | none => some (.invalidHash, s)
  | some si => searchOnBlock si ceiling 0 s

/-- Several hashes, one after another, with one copy of the table. -/
def crackAllOnBlock (copy : List Word) (ceiling : Nat) : List Word → State → Option (List CrackResult × State)
  | [], s => some ([], s)
  | h :: hs, s => match crackOnBlock copy ceiling h s with
    | none => none
    | some (r, t) => match crackAllOnBlock copy ceiling hs t with
      | none => none
      | some (rs, u) => some (r :: rs, u)

/-- The whole host program of R131: set up once, then each hash. -/
def hostProgram (ceiling : Nat) (hashes : List Word) (s : State) : Option (List CrackResult × State) :=
  match setUp s with
  | none => none
  | some (copy, t) => crackAllOnBlock copy ceiling hashes t

end Sys2Proof.Machine
end

