-- ==== Sys2Proof/Config.lean ====
section
/-! DEFINITION. What an implementation of the block fixes and this spec leaves open. None of it is read by a command's
meaning: it is used by the clock-level view of Machine/Port.lean alone (00_scope.md R6, 70_reset_and_hazards.md R167). -/

namespace Sys2Proof.Config

/-- `BUILD_LATENCY - 1`: the cycles beyond the first from the acceptance of a BUILD at a given clock count to its
response. "OPEN, at least 1" (00_scope.md R6); it "may differ between implementations and between commands"
(70_reset_and_hazards.md R167), so it may depend on when the command is accepted. UNVERIFIED, safe: no value (log 10). -/
opaque buildLatencyBeyondOne : Nat → Nat

/-- `CMD_LATENCY - 1` of any other command word accepted at a given clock count (00_scope.md R6, R167).
UNVERIFIED, safe: no value (log 10). -/
opaque cmdLatencyBeyondOne : Nat → CmdWord → Nat

/-- Whether `cmd_ready` is high already in the cycle of a response, or only in the cycle after it; left open by
70_reset_and_hazards.md R165 ("no later than the cycle after the response") and 93 IM14. UNVERIFIED, safe (log 10). -/
opaque readyWithResponse : Nat → Bool

end Sys2Proof.Config
end

