-- ==== Sys2Proof/Machine/Port.lean ====
section
/-! DEFINITION. The clock-level view of the ports (70_reset_and_hazards.md R160, R161, R165, R167): the handshake around
`acceptCommand`. It is a reference interface; the machine's `step` works on accepted commands and does not use it, and
nothing here depends on what the open latencies are (log 10). -/

namespace Sys2Proof.Machine

/-- The block with its busy indication (10_state.md R17): the command it executes and the cycles left before the
response. `clock` counts the cycles since some start; only the open latencies look at it. -/
structure Port where
  block : State
  busy : Option (CmdWord × Nat)
  clock : Nat
  deriving DecidableEq, Repr

/-- The input pins sampled in one cycle (R160). -/
structure PortPins where
  rst : Bool
  cmdValid : Bool
  cmd : CmdWord
  deriving DecidableEq, Repr

/-- The cycles beyond the first that a command accepted now takes; BUILD has its own latency (00_scope.md R6). -/
def latencyBeyondOne (clock : Nat) (w : CmdWord) : Nat :=
  if w = encode .build then Config.buildLatencyBeyondOne clock else Config.cmdLatencyBeyondOne clock w

/-- `BUILD_LATENCY` or `CMD_LATENCY`: cycles from acceptance to response, at least 1 (00_scope.md R6). -/
def latency (clock : Nat) (w : CmdWord) : Nat := latencyBeyondOne clock w + 1

/-- `cmd_ready`: low from acceptance to response; high again with the response or one cycle after it (R165). -/
def Port.cmdReady (p : Port) : Bool :=
  p.busy.isNone && (p.block.rsp.isNone || Config.readyWithResponse p.clock)

/-- What is on `rsp` in a cycle with these pins: the response that landed at the edge before it; "in a cycle in which
`rst = 1` the block [...] produces no response" (R160), so a response whose cycle has `rst = 1` is never shown. -/
def Port.rspShown (p : Port) (pins : PortPins) : Option RspWord := if pins.rst then none else p.block.rsp

/-- `rsp_valid`: a response is on `rsp` this cycle (R160). -/
def Port.rspValid (p : Port) (pins : PortPins) : Bool := (p.rspShown pins).isSome

/-- "A command is accepted in a cycle in which `cmd_valid = 1` and `cmd_ready = 1` and `rst = 0`" (R160). -/
def Port.accepts (p : Port) (pins : PortPins) : Bool := pins.cmdValid && p.cmdReady && !pins.rst

/-- One cycle of executing `w` with `n` cycles left after this one: the command's effect and response land together
(00_scope.md R9). -/
def Port.work (p : Port) (w : CmdWord) : Nat → Host.Outcome Port Fault Refusal
  | 0 => match acceptCommand w p.block with
    | .next s => .next ⟨s, none, p.clock + 1⟩
    | .fault f => .fault f
    | .refused r => .refused r
  | n + 1 => .next ⟨p.block.idle, some (w, n), p.clock + 1⟩

/-- One clock cycle (R160, R161, R165). -/
def Port.cycle (p : Port) (pins : PortPins) : Host.Outcome Port Fault Refusal :=
  if pins.rst then .next ⟨p.block.applyReset, none, p.clock + 1⟩
  else match p.busy with
    | some (w, n) => p.work w n
    | none =>
      if p.accepts pins then p.work pins.cmd (latencyBeyondOne p.clock pins.cmd)
      else .next ⟨p.block.idle, none, p.clock + 1⟩

/-- Consecutive cycles. -/
def Port.cycles : List PortPins → Port → Host.Outcome Port Fault Refusal
  | [], p => .next p
  | pins :: rest, p => match p.cycle pins with
    | .next q => Port.cycles rest q
    | .fault f => .fault f
    | .refused r => .refused r

end Sys2Proof.Machine
end

