-- ==== Sys2Proof/Machine/Run.lean ====
section
/-! DEFINITION. A run: a finite list of inputs, the responses they produce in order, and the state at the end
(70_reset_and_hazards.md R166). -/

namespace Sys2Proof.Machine

/-- The run of a list of inputs. Its result is the list of responses and the final state (R166). -/
def runInputs : List PortInput → State → Host.Outcome (List RspWord × State) Fault Refusal
  | [], s => .next ([], s)
  | p :: ps, s =>
    match takeInput p s with
    | .fault f => .fault f
    | .refused r => .refused r
    | .next s' =>
      match runInputs ps s' with
      | .fault f => .fault f
      | .refused r => .refused r
      | .next (rs, t) => .next (s'.rsp.toList ++ rs, t)

/-- The run of a list of command words without a reset. -/
def runWords (ws : List CmdWord) (s : State) : Host.Outcome (List RspWord × State) Fault Refusal :=
  runInputs (ws.map .command) s

/-- The run of a list of commands, each as its word. -/
def runCommands (is : List Instr) (s : State) : Host.Outcome (List RspWord × State) Fault Refusal :=
  runWords (is.map encode) s

end Sys2Proof.Machine
end

