-- ==== Sys2Proof/Safety.lean ====
section
/-! DEFINITION. What every reachable state satisfies, and what a run without error is. -/

namespace Sys2Proof.Machine

/-- The table's canonical form and 10_state.md R12: whenever `TVALID = 1`, `TABLE[i] = ENTRY(i)` for every `i`. -/
def State.TableOk (s : State) : Prop :=
  s.table.wf ∧ (s.tvalid = true → ∀ i : Byte, s.entryAt i = some (entry i))

/-- `ERR` is 0, 1 or 2 (10_state.md R14, 93 IM9). -/
def State.ErrOk (s : State) : Prop := s.err = 0#4 ∨ s.err = 1#4 ∨ s.err = 2#4

/-- A response on the port is OK, or it is a refusal with data 0 that `ERR` has noted (30_encoding.md R57,
60_exceptions.md R144, R145). -/
def State.RspOk (s : State) : Prop :=
  ∀ r, s.rsp = some r →
    rspCode r = 0#4 ∨ ((rspCode r = 1#4 ∨ rspCode r = 2#4) ∧ rspData r = 0#32 ∧ s.err ≠ 0#4)

/-- The invariant of the block. -/
structure State.Inv (s : State) : Prop where
  tableOk : s.TableOk
  errOk : s.ErrOk
  rspOk : s.RspOk

/-- A run, which is a list of commands (70_reset_and_hazards.md R166), went without error when `ERR = 0` at its end
(60_exceptions.md R145, R154). -/
def SafeRun (ws : List CmdWord) (s : State) : Prop :=
  ∃ rs t, runWords ws s = .next (rs, t) ∧ t.err = 0#4

/-- A list of inputs that may hold resets went without error when no command of it was answered with a refusal. A reset
clears `ERR`, so `ERR = 0` at the end would say nothing of what came before it; the spec does not class such a list. A word
cut by reset has no response and counts as no error (DESIGN CHOICE, log 17). -/
def SafeInputs (l : List PortInput) (s : State) : Prop :=
  ∃ rs t, runInputs l s = .next (rs, t) ∧ ∀ r ∈ rs, rspCode r = okCode

end Sys2Proof.Machine
end

