-- ==== Sys2Proof/Certificates/Slice0/Obligations.lean ====
section
/-! DEFINITION. The statements about the model, for the provers. Where a statement says what a command leaves, it gives
the whole next state: every field that is not named in the record update is unchanged. -/

namespace Sys2Proof.Spec
open Sys2Proof.Machine

/-- The state after a command that executed with response data `d` and wrote nothing (30_encoding.md R56: code 0). -/
def answered (s : State) (d : Word) : State := { s with rsp := some (0#4 ++ d) }

/-- The state after a refused command: `ERR` takes the code if it was 0, the response is `{code, 0}`, nothing else
changes (60_exceptions.md R144, R145). -/
def refusedWith (s : State) (code : BitVec 4) : State :=
  { s with err := if s.err = 0#4 then code else s.err, rsp := some (code ++ 0#32) }

/-- A format Z opcode: any word with a nonzero argument is refused with `ERR_ILLEGAL` (code 1) in every state. -/
def RefusesArgument (op : Byte) : Prop :=
  ∀ (w : CmdWord) (s : State), w.extractLsb' 32 8 = op → w.extractLsb' 0 32 ≠ 0#32 →
    acceptCommand w s = .next (refusedWith s 1#4)

/-- A format B opcode: any word with a bit set in `cmd[31:8]` is refused with `ERR_ILLEGAL` in every state. -/
def RefusesReservedBits (op : Byte) : Prop :=
  ∀ (w : CmdWord) (s : State), w.extractLsb' 32 8 = op → w.extractLsb' 8 24 ≠ 0#24 →
    acceptCommand w s = .next (refusedWith s 1#4)

/-- The commands that read the table (60_exceptions.md R140). -/
def readsTable : Instr → Bool
  | .rdtab _ | .upd _ | .updi _ => true
  | .nop | .build | .init | .load _ | .idx _ | .rdcrc | .rdst => false

/-- The low byte of the register XOR a byte: the computed index (20_memory.md R31). -/
def indexOf (crc : Word) (b : Byte) : Byte := (crc ^^^ b.setWidth 32).extractLsb' 0 8

/-- `n` bytes, each an ASCII decimal digit. -/
def DigitString (n : Nat) (ds : List Byte) : Prop :=
  ds.length = n ∧ ∀ d ∈ ds, 0x30 ≤ d.toNat ∧ d.toNat ≤ 0x39

/-- The block is ready to be used: the invariant holds and the table is built. -/
def Built (s : State) : Prop := s.Inv ∧ s.tvalid = true

end Sys2Proof.Spec

section
open Sys2Proof Sys2Proof.Machine Sys2Proof.Spec

/-! Reset -/

/-- 10_state.md R22. -/
def Obligations.ResetClearsStatus : Prop :=
  State.reset.tvalid = false ∧ State.reset.err = 0#4 ∧ State.reset.status = 0x00000000#32

/-- 10_state.md R20: the register after reset, that INIT sets the same value at any time, and that UPD commands directly
after reset and BUILD give the CRC of a string. -/
def Obligations.ResetRegisterStartsAString : Prop :=
  State.reset.crc = 0xFFFFFFFF#32 ∧
  (∀ s : State, ∃ t, exec .init s = .next t ∧ t.crc = State.reset.crc) ∧
  (∀ bytes : List Byte, ∃ rs t, runCommands (.build :: bytes.map .upd) State.reset = .next (rs, t) ∧
    t.crc = rawRegister entry bytes)

/-- 10_state.md R21: no entry has a value after reset, a table-reading command is refused while `TVALID = 0`, and no run
can tell what the unspecified entries hold. -/
def Obligations.ResetTableCannotBeObserved : Prop :=
  (∀ i : Byte, State.reset.entryAt i = none) ∧
  (∀ (i : Instr) (s : State), readsTable i = true → s.tvalid = false → exec i s = .next (refusedWith s 2#4)) ∧
  (∀ (m : Memory) (ins : List PortInput), ∃ rs t t',
    runInputs ins State.reset = .next (rs, t) ∧ runInputs ins (State.reset.setTable m) = .next (rs, t') ∧
    t'.crc = t.crc ∧ t'.tvalid = t.tvalid ∧ t'.err = t.err ∧ t'.rsp = t.rsp)

/-- 70_reset_and_hazards.md R161, in the clock-level view: whatever the block was doing. No response is shown in the cycle
with `rst = 1` itself (R160) nor, whatever the pins, in the cycle after it. -/
def Obligations.ResetAbandonsACommand : Prop :=
  ∀ (p : Port) (pins : PortPins), pins.rst = true → p.rspValid pins = false ∧ p.accepts pins = false ∧
    ∃ q, p.cycle pins = .next q ∧ q.busy = none ∧ (∀ after : PortPins, q.rspValid after = false) ∧ q.block.crc = 0xFFFFFFFF#32 ∧
      q.block.tvalid = false ∧ q.block.err = 0#4 ∧ ∀ i : Byte, q.block.entryAt i = none

/-- 70_reset_and_hazards.md R162: no accepted word clears a set `TVALID` or changes a nonzero `ERR`; every reset, also one
that cuts a command, clears both and sets `CRC`, and leaves nothing out. (That an idle block keeps its state is in
`StepRunsTheDecodedCommand`.) -/
def Obligations.OnlyResetClearsErrAndTvalid : Prop :=
  (∀ (w : CmdWord) (s t : State), acceptCommand w s = .next t →
    (s.tvalid = true → t.tvalid = true) ∧ (s.err ≠ 0#4 → t.err = s.err)) ∧
  (∀ (p : PortInput) (s : State), (p = .reset ∨ ∃ w, p = .commandCutByReset w) →
    ∃ t, takeInput p s = .next t ∧ t.tvalid = false ∧ t.err = 0#4 ∧ t.crc = 0xFFFFFFFF#32 ∧
      ∀ i : Byte, t.entryAt i = none)

/-! The invariant and the step -/

/-- The invariant holds after reset. -/
def Obligations.ResetSatisfiesInvariant : Prop := State.reset.Inv

/-- Every step keeps the invariant: the table's canonical form and 10_state.md R12, the values of `ERR` (R14), and that
a response on the port is OK or a noted refusal with data 0 (30 R57, 60 R144, R145). -/
def Obligations.StepKeepsInvariant : Prop :=
  ∀ s t : State, s.Inv → step s = .next t → t.Inv

/-- "There is no stuck state" (60_exceptions.md R154): with the invariant every step and every accepted word, legal or
not, answers a next state. -/
def Obligations.NoStateIsStuck : Prop :=
  (∀ s : State, s.Inv → ∃ t, step s = .next t) ∧
  (∀ (w : CmdWord) (s : State), s.Inv → ∃ t, acceptCommand w s = .next t ∧ t.Inv)

/-- A step takes the next input: it runs the decoded command of an accepted word (30_encoding.md R61), also of a word
placed by `withFetchWord`; a reset gives the reset state; with nothing presented only the response port changes. The queue of
inputs, the later inputs a reset keeps, and the idle step are the model's (logs 1, 9, 3). -/
def Obligations.StepRunsTheDecodedCommand : Prop :=
  (∀ (s : State) (rest : List PortInput) (w : CmdWord) (i : Instr), decode w = .ok i →
    step { s with inputs := .command w :: rest } = exec i { s with inputs := rest }) ∧
  (∀ (s : State) (w : Nat) (i : Instr), decodeTableWord 40 w = some i → step (s.withFetchWord 40 w) = exec i s) ∧
  (∀ (s : State) (rest : List PortInput),
    step { s with inputs := .reset :: rest } = .next { State.reset with inputs := rest }) ∧
  (∀ s : State, s.inputs = [] → step s = .next { s with rsp := none })

/-- One agent, program order (20_memory.md R39, 30_encoding.md R61, 70 R166): running the step over the presented inputs
is the run of those inputs, in the order presented, whatever else stood in the queue before. The queue is log 1's. -/
def Obligations.StepsRunTheInputsInOrder : Prop :=
  ∀ (ins : List PortInput) (s t : State) (rs : List RspWord),
    runInputs ins { s with inputs := [] } = .next (rs, t) →
    core.run ins.length { s with inputs := ins } = .next t ∧ t.inputs = []

/-! Decoding -/

/-- 30_encoding.md R54, with the effect of 60_exceptions.md R144: which words are illegal, that an illegal one is
refused in every state, and that the decoder is total. -/
def Obligations.IllegalWordsAreRefused : Prop :=
  (∀ w : CmdWord, legalWord w = false ↔
    (w.extractLsb' 32 8 ∉ [0x00#8, 0x01#8, 0x02#8, 0x10#8, 0x11#8, 0x12#8, 0x13#8, 0x14#8, 0x15#8, 0x20#8] ∨
      (w.extractLsb' 32 8 ∈ [0x00#8, 0x01#8, 0x10#8, 0x15#8, 0x20#8] ∧ w.extractLsb' 0 32 ≠ 0#32) ∨
      (w.extractLsb' 32 8 ∈ [0x02#8, 0x12#8, 0x13#8, 0x14#8] ∧ w.extractLsb' 8 24 ≠ 0#24))) ∧
  (∀ (w : CmdWord) (s : State), legalWord w = false → acceptCommand w s = .next (refusedWith s 1#4)) ∧
  (∀ w : CmdWord, legalWord w = true ↔ ∃ i, decode w = .ok i)

/-- 30_encoding.md R53: at most one row of the opcode map selects a word; a word decodes to a command of exactly the row
that selects it, with the row's operand field. -/
def Obligations.OpcodeMapSelectsOneRow : Prop :=
  (∀ (w : CmdWord) (r r' : OpRow), r ∈ opcodeMap → r' ∈ opcodeMap → r.selects w = true → r'.selects w = true → r = r') ∧
  (∀ (w : CmdWord) (i : Instr), decode w = .ok i →
    (∃ r ∈ opcodeMap, r.selects w = true ∧ r.mnemonic = i.mnemonic) ∧
    i.operand = match i.mnemonic.format with
      | .Z => none
      | .B => some (w.extractLsb' 0 8).toNat
      | .W => some (w.extractLsb' 0 32).toNat) ∧
  (∀ (w : CmdWord) (r : OpRow), r ∈ opcodeMap → r.selects w = true → ∃ i, decode w = .ok i ∧ i.mnemonic = r.mnemonic)

/-- Decode after encode, for every command and every operand. -/
def Obligations.DecodeOfEncodeIsTheCommand : Prop :=
  ∀ i : Instr, i.wellFormed = true → decode (encode i) = .ok i

/-- Each command has one word: a word that decodes is the encoding of what it decodes to. -/
def Obligations.EncodeOfDecodeIsTheWord : Prop :=
  ∀ (w : CmdWord) (i : Instr), decode w = .ok i → encode i = w

/-- Words of 30_encoding.md R53 and R59, 60 R141 and 95_test_vectors.md written out: a sanity statement. -/
def Obligations.SpecWordsDecode : Prop :=
  decode 0x0000000000 = .ok .nop ∧ decode 0x0100000000 = .ok .build ∧ decode 0x0200000080 = .ok (.rdtab 0x80) ∧
  decode 0x1000000000 = .ok .init ∧ decode 0x11FFFFFFFF = .ok (.load 0xFFFFFFFF) ∧
  decode 0x1200000031 = .ok (.upd 0x31) ∧ decode 0x13000000CE = .ok (.updi 0xCE) ∧
  decode 0x1400000033 = .ok (.idx 0x33) ∧ decode 0x1500000000 = .ok .rdcrc ∧ decode 0x2000000000 = .ok .rdst ∧
  decode 0x0300000000 = .error (.undefinedOpcode 0x03) ∧ decode 0x0100000001 = .error (.reservedBitSet .BUILD) ∧
  decode 0x1200000131 = .error (.reservedBitSet .UPD)

/-! The system commands -/

/-- 42_system.md R110: NOP. -/
def Obligations.NopChangesNothing : Prop :=
  decode 0x0000000000 = .ok .nop ∧
  (∀ s : State, exec .nop s = .next (answered s 0x00000000#32)) ∧
  RefusesArgument 0x00#8

/-- 42_system.md R111: RDST. -/
def Obligations.RdstReturnsStatus : Prop :=
  decode 0x2000000000 = .ok .rdst ∧
  (∀ s : State, exec .rdst s = .next (answered s (0#24 ++ s.err ++ 0#3 ++ BitVec.ofBool s.tvalid))) ∧
  RefusesArgument 0x20#8

/-- 10_state.md R15: the layout of STATUS. -/
def Obligations.StatusLayout : Prop :=
  ∀ s : State, s.status.getLsbD 0 = s.tvalid ∧ s.status.extractLsb' 1 3 = 0#3 ∧ s.status.extractLsb' 4 4 = s.err ∧
    s.status.extractLsb' 8 24 = 0#24

/-! The table commands -/

/-- 40_table_generator.md R72: BUILD with `TVALID = 0`, from every state. Index by index: no entry outside the table is
touched, and nothing but the table, `TVALID` and the response changes. The clauses about the canonical form `wf`, of the new
memory and as a premise on the old one, are the model's choice (log 6); no rule states them. -/
def Obligations.BuildFillsTheTable : Prop :=
  decode 0x0100000000 = .ok .build ∧
  (∀ s : State, s.tvalid = false →
    ∃ m, exec .build s = .next { s with table := m, tvalid := true, rsp := some (0#4 ++ 0#32) } ∧
      (∀ i : Byte, m.read i.toNat = some (gstep (gstep (gstep (gstep (gstep (gstep (gstep (gstep (i.setWidth 32)))))))))) ∧
      m.wf ∧ (s.table.wf → ∀ a : Nat, 256 ≤ a → m.read a = s.table.read a)) ∧
  RefusesArgument 0x01#8

/-- 40_table_generator.md R70, the generator step on every value, bit by bit: bit 31 of the shifted value is 0. -/
def Obligations.GeneratorStep : Prop :=
  ∀ g : Word, gstep g = (0#1 ++ g.extractLsb' 1 31) ^^^ (if g.getLsbD 0 = true then 0xEDB88320#32 else 0#32)

/-- 40_table_generator.md R73: a second BUILD. -/
def Obligations.SecondBuildChangesNothing : Prop :=
  ∀ s : State, s.tvalid = true → exec .build s = .next (answered s 0x00000000#32)

/-- 40_table_generator.md R74: RDTAB. -/
def Obligations.RdtabReturnsTheEntry : Prop :=
  (∀ b : Byte, decode (0x0200000000#40 ||| b.setWidth 40) = .ok (.rdtab b)) ∧
  (∀ (b : Byte) (s : State), s.tvalid = false → exec (.rdtab b) s = .next (refusedWith s 2#4)) ∧
  (∀ (b : Byte) (s : State) (v : Word), s.tvalid = true → s.entryAt b = some v →
    exec (.rdtab b) s = .next (answered s v)) ∧
  RefusesReservedBits 0x02#8

/-- 40_table_generator.md R75. -/
def Obligations.OnlyEntryZeroIsZero : Prop :=
  entry 0x00#8 = 0x00000000#32 ∧ ∀ i : Byte, 1 ≤ i.toNat → entry i ≠ 0#32

/-- 40_table_generator.md R76: linear over XOR, hence fixed by the entries at the powers of two. -/
def Obligations.EntryIsLinear : Prop :=
  (∀ a b : Byte, entry (a ^^^ b) = entry a ^^^ entry b) ∧
  entry 0x01#8 = 0x77073096#32 ∧ entry 0x02#8 = 0xEE0E612C#32 ∧ entry 0x04#8 = 0x076DC419#32 ∧
  entry 0x08#8 = 0x0EDB8832#32 ∧ entry 0x10#8 = 0x1DB71064#32 ∧ entry 0x20#8 = 0x3B6E20C8#32 ∧
  entry 0x40#8 = 0x76DC4190#32 ∧ entry 0x80#8 = 0xEDB88320#32

/-- 40_table_generator.md R77: the top bytes of the entries are a permutation. -/
def Obligations.TopBytesArePermutation : Prop :=
  (∀ i j : Byte, (entry i).extractLsb' 24 8 = (entry j).extractLsb' 24 8 → i = j) ∧
  (∀ t : Byte, ∃! i : Byte, (entry i).extractLsb' 24 8 = t)

/-- 20_memory.md R44: after a built table, through any commands (legal or not, a later BUILD among them) and no reset,
every entry stays `ENTRY(i)` and RDTAB returns it. -/
def Obligations.BuiltTableNeverChanges : Prop :=
  ∀ (ws : List CmdWord) (s t : State) (rs : List RspWord), Built s → runWords ws s = .next (rs, t) →
    t.tvalid = true ∧ ∀ i : Byte, t.entryAt i = some (entry i) ∧ exec (.rdtab i) t = .next (answered t (entry i))

/-! The register commands -/

/-- 41_register_update.md R90: INIT. -/
def Obligations.InitSetsTheStartValue : Prop :=
  decode 0x1000000000 = .ok .init ∧
  (∀ s : State, exec .init s = .next { s with crc := 0xFFFFFFFF#32, rsp := some (0#4 ++ 0xFFFFFFFF#32) }) ∧
  (∀ s : State, exec .init s = exec (.load 0xFFFFFFFF#32) s) ∧
  RefusesArgument 0x10#8

/-- 41_register_update.md R91: LOAD, which no word with its opcode makes illegal. -/
def Obligations.LoadSetsTheRegister : Prop :=
  (∀ v : Word, decode (0x1100000000#40 ||| v.setWidth 40) = .ok (.load v)) ∧
  (∀ (v : Word) (s : State), exec (.load v) s = .next { s with crc := v, rsp := some (0#4 ++ v) }) ∧
  (∀ w : CmdWord, w.extractLsb' 32 8 = 0x11#8 → decode w = .ok (.load (w.extractLsb' 0 32)))

/-- 41_register_update.md R96: RDCRC. -/
def Obligations.RdcrcReturnsTheRegister : Prop :=
  decode 0x1500000000 = .ok .rdcrc ∧
  (∀ s : State, exec .rdcrc s = .next (answered s s.crc)) ∧
  RefusesArgument 0x15#8

/-- 41_register_update.md R92: UPD. -/
def Obligations.UpdUpdatesTheRegister : Prop :=
  (∀ b : Byte, decode (0x1200000000#40 ||| b.setWidth 40) = .ok (.upd b)) ∧
  (∀ (b : Byte) (s : State), s.tvalid = false → exec (.upd b) s = .next (refusedWith s 2#4)) ∧
  (∀ (b : Byte) (s : State) (v : Word), s.tvalid = true → s.entryAt (indexOf s.crc b) = some v →
    exec (.upd b) s = .next { s with crc := (s.crc >>> 8) ^^^ v, rsp := some (0#4 ++ ((s.crc >>> 8) ^^^ v)) }) ∧
  RefusesReservedBits 0x12#8

/-- 41_register_update.md R94: UPDI, and its equality with UPD of `CRC[7:0] ^ x`. -/
def Obligations.UpdiUpdatesTheRegister : Prop :=
  (∀ x : Byte, decode (0x1300000000#40 ||| x.setWidth 40) = .ok (.updi x)) ∧
  (∀ (x : Byte) (s : State), s.tvalid = false → exec (.updi x) s = .next (refusedWith s 2#4)) ∧
  (∀ (x : Byte) (s : State) (v : Word), s.tvalid = true → s.entryAt x = some v →
    exec (.updi x) s = .next { s with crc := v ^^^ (s.crc >>> 8), rsp := some (0#4 ++ (v ^^^ (s.crc >>> 8))) }) ∧
  (∀ (x : Byte) (s : State), exec (.updi x) s = exec (.upd (s.crc.extractLsb' 0 8 ^^^ x)) s) ∧
  RefusesReservedBits 0x13#8

/-- 41_register_update.md R95: IDX, built or not; the index it returns is the one UPD of the same byte reads at. -/
def Obligations.IdxReturnsTheIndex : Prop :=
  (∀ b : Byte, decode (0x1400000000#40 ||| b.setWidth 40) = .ok (.idx b)) ∧
  (∀ (b : Byte) (s : State), exec (.idx b) s = .next (answered s (0#24 ++ indexOf s.crc b))) ∧
  (∀ (b : Byte) (s : State), exec (.upd b) s = exec (.updi (indexOf s.crc b)) s) ∧
  (∀ s : State, indexOf s.crc 0x00#8 = s.crc.extractLsb' 0 8) ∧
  RefusesReservedBits 0x14#8

/-- The table-reading commands complete on every built block, with the entry that 10_state.md R12 gives: RDTAB (R74),
UPD (R92) and UPDI (R94). -/
def Obligations.BuiltBlockCompletesTableReads : Prop :=
  ∀ (s : State) (b : Byte), Built s →
    exec (.rdtab b) s = .next (answered s (entry b)) ∧
    exec (.upd b) s = .next { s with
      crc := (s.crc >>> 8) ^^^ entry (indexOf s.crc b),
      rsp := some (0#4 ++ ((s.crc >>> 8) ^^^ entry (indexOf s.crc b))) } ∧
    exec (.updi b) s = .next { s with
      crc := entry b ^^^ (s.crc >>> 8), rsp := some (0#4 ++ (entry b ^^^ (s.crc >>> 8))) }

/-- The model's one stop (log 5, the model's choice): with `TVALID = 1` a table read of an entry without a value stops by
name; 10_state.md R12 rules such states out and the invariant excludes them. -/
def Obligations.UnwrittenEntryStopsOutsideTheInvariant : Prop :=
  (∀ (s : State) (b : Byte), s.tvalid = true → s.entryAt b = none →
    exec (.rdtab b) s = .fault (.tableEntryUnwritten b) ∧ exec (.updi b) s = .fault (.tableEntryUnwritten b)) ∧
  (∀ (s : State) (b : Byte), s.tvalid = true → s.entryAt (indexOf s.crc b) = none →
    exec (.upd b) s = .fault (.tableEntryUnwritten (indexOf s.crc b))) ∧
  (∀ (s : State) (i : Instr) (f : Fault), s.Inv → exec i s ≠ .fault f)

/-- 41_register_update.md R99: the top byte after an update is that of the entry used, and it names the index. -/
def Obligations.TopByteNamesTheIndex : Prop :=
  ∀ (s t : State) (i : Instr) (x : Byte), Built s →
    (i = .updi x ∨ ∃ b, i = .upd b ∧ x = indexOf s.crc b) → exec i s = .next t →
    t.crc.extractLsb' 24 8 = (entry x).extractLsb' 24 8 ∧
    ∀ y : Byte, (entry y).extractLsb' 24 8 = t.crc.extractLsb' 24 8 → y = x

/-- 41_register_update.md R100: four updates forget the start value, the result fixes the four indices, and their top
bytes are peeled off it one after another. -/
def Obligations.FourUpdatesForgetTheStart : Prop :=
  (∀ (s : State) (x0 x1 x2 x3 : Byte), Built s → ∃ rs t,
    runCommands [.updi x0, .updi x1, .updi x2, .updi x3] s = .next (rs, t) ∧
    t.crc = entry x3 ^^^ (entry x2 >>> 8) ^^^ (entry x1 >>> 16) ^^^ (entry x0 >>> 24)) ∧
  (∀ x0 x1 x2 x3 y0 y1 y2 y3 : Byte,
    entry x3 ^^^ (entry x2 >>> 8) ^^^ (entry x1 >>> 16) ^^^ (entry x0 >>> 24) =
      entry y3 ^^^ (entry y2 >>> 8) ^^^ (entry y1 >>> 16) ^^^ (entry y0 >>> 24) →
    x0 = y0 ∧ x1 = y1 ∧ x2 = y2 ∧ x3 = y3) ∧
  (∀ (x0 x1 x2 x3 : Byte) (ht : Word),
    ht = entry x3 ^^^ (entry x2 >>> 8) ^^^ (entry x1 >>> 16) ^^^ (entry x0 >>> 24) →
    ht.extractLsb' 24 8 = (entry x3).extractLsb' 24 8 ∧
    (ht ^^^ entry x3).extractLsb' 16 8 = (entry x2).extractLsb' 24 8 ∧
    (ht ^^^ entry x3 ^^^ (entry x2 >>> 8)).extractLsb' 8 8 = (entry x1).extractLsb' 24 8 ∧
    (ht ^^^ entry x3 ^^^ (entry x2 >>> 8) ^^^ (entry x1 >>> 16)).extractLsb' 0 8 = (entry x0).extractLsb' 24 8)

/-- 41_register_update.md R102: the update is linear, and for a fixed byte a bijection. -/
def Obligations.UpdateIsLinearAndInvertible : Prop :=
  (∀ (r r' : Word) (c c' : Byte),
    updateWith entry (r ^^^ r') (c ^^^ c') = updateWith entry r c ^^^ updateWith entry r' c') ∧
  updateWith entry 0#32 0#8 = 0#32 ∧
  (∀ c : Byte, Function.Bijective fun r => updateWith entry r c) ∧
  (∀ (r : Word) (c x : Byte), (entry x).extractLsb' 24 8 = (updateWith entry r c).extractLsb' 24 8 →
    r.extractLsb' 8 24 = (updateWith entry r c ^^^ entry x).extractLsb' 0 24 ∧ r.extractLsb' 0 8 = x ^^^ c)

/-- 41_register_update.md R103: response and next register of the register commands depend on `CRC`, `TVALID` and the
built table alone, whatever `ERR`, the response port and the unbuilt table hold; the same for a sequence of them. -/
def Obligations.RegisterCommandsAreDeterministic : Prop :=
  (∀ (i : Instr) (s s' : State),
    i.mnemonic ∈ [Mnemonic.INIT, .LOAD, .UPD, .UPDI, .IDX, .RDCRC] → s.Inv → s'.Inv →
    s.crc = s'.crc → s.tvalid = s'.tvalid →
    ∃ t t', exec i s = .next t ∧ exec i s' = .next t' ∧ t.crc = t'.crc ∧ t.rsp = t'.rsp ∧
      t.tvalid = t'.tvalid) ∧
  (∀ (is : List Instr) (s s' : State),
    (∀ i ∈ is, i.mnemonic ∈ [Mnemonic.INIT, .LOAD, .UPD, .UPDI, .IDX, .RDCRC]) → s.Inv → s'.Inv →
    s.crc = s'.crc → s.tvalid = s'.tvalid →
    ∃ rs t t', runCommands is s = .next (rs, t) ∧ runCommands is s' = .next (rs, t') ∧ t.crc = t'.crc ∧
      t.tvalid = t'.tvalid)

/-- 41_register_update.md R97: CRCSTR leaves the raw register of the string, LASTIDX returns the last index, on any built
block; what the decimal string of an integer is; and the rule's worked example. -/
def Obligations.StringRegisterOnTheBlock : Prop :=
  (∀ (s : State) (bytes : List Byte), Built s → ∃ rs t,
    runCommands (Pseudo.crcstr bytes).expand s = .next (rs, t) ∧ t.crc = rawRegister entry bytes ∧
    rs.getLast? = some (0#4 ++ rawRegister entry bytes) ∧ rs.length = bytes.length + 1 ∧
    t.table = s.table ∧ t.tvalid = true ∧ t.err = s.err) ∧
  (∀ (s : State) (front : List Byte) (last : Byte), Built s → ∃ rs t,
    runCommands (Pseudo.lastidx front last).expand s = .next (rs, t) ∧ t.crc = rawRegister entry front ∧
    t.rsp = some (0#4 ++ (0#24 ++ indexOf (rawRegister entry front) last))) ∧
  (∀ (bytes : List Byte) (c : Byte), rawRegister entry [] = 0xFFFFFFFF#32 ∧
    rawRegister entry (bytes ++ [c]) = updateWith entry (rawRegister entry bytes) c) ∧
  (∀ n : Nat, DigitString (decimal n).length (decimal n) ∧ (n ≠ 0 → (decimal n).head? ≠ some 0x30#8) ∧
    (decimal n).foldl (fun m d => 10 * m + (d.toNat - 0x30)) 0 = n) ∧
  decimal 0 = [0x30#8] ∧ rawRegister entry (decimal 123456789) = 0x340BC6D9#32

/-! Errors -/

/-- 60_exceptions.md R140: a response code is 0, 1 or 2; 1 exactly for an illegal word, 2 exactly for a table-reading
command while `TVALID = 0`; and the code is recorded in `ERR` if `ERR` was 0. -/
def Obligations.ExactlyTwoErrors : Prop :=
  ∀ (w : CmdWord) (s t : State), acceptCommand w s = .next t →
    ∃ r, t.rsp = some r ∧ (rspCode r = 0#4 ∨ rspCode r = 1#4 ∨ rspCode r = 2#4) ∧
      (rspCode r = 1#4 ↔ legalWord w = false) ∧
      (rspCode r = 2#4 ↔ s.tvalid = false ∧ ∃ i, decode w = .ok i ∧ readsTable i = true) ∧
      (rspCode r ≠ 0#4 → s.err = 0#4 → t.err = rspCode r)

/-- 60_exceptions.md R144 and R145: a refused command changes `ERR` at most, and only from 0; a command that executes
leaves `ERR` alone. -/
def Obligations.RefusalIsPreciseAndSticky : Prop :=
  ∀ (w : CmdWord) (s t : State) (r : RspWord), acceptCommand w s = .next t → t.rsp = some r →
    (rspCode r ≠ 0#4 → t = refusedWith s (rspCode r)) ∧ (rspCode r = 0#4 → t.err = s.err)

/-- After BUILD a run of legal words is never refused, so `ERR` stays as it was (48_host_cracker.md R131, 60 R142). -/
def Obligations.LegalRunOnBuiltTableIsSafe : Prop :=
  ∀ (ws : List CmdWord) (s : State), Built s → (∀ w ∈ ws, legalWord w = true) →
    ∃ rs t, runWords ws s = .next (rs, t) ∧ t.err = s.err ∧ ∀ r ∈ rs, rspCode r = 0#4

/-- Every accepted command that is not cut by reset gives one response, in order, and nothing else gives one
(30_encoding.md R56, 70_reset_and_hazards.md R161, R165). -/
def Obligations.OneResponsePerCommand : Prop :=
  (∀ (w : CmdWord) (s t : State), takeInput (.command w) s = .next t → ∃ r, t.rsp = some r) ∧
  (∀ (ins : List PortInput) (s t : State) (rs : List RspWord), runInputs ins s = .next (rs, t) →
    rs.length = (ins.filter fun p => match p with | .command _ => true | _ => false).length)

/-- The frame, by shape (10_state.md section 1): only INIT, LOAD, UPD and UPDI write `CRC`; only BUILD writes `TVALID`
and the table, entry by entry; `ERR` changes only by a refusal; what the host presents is untouched. -/
def Obligations.CommandFrames : Prop :=
  ∀ (i : Instr) (s t : State), exec i s = .next t →
    (i.mnemonic ∉ [Mnemonic.INIT, .LOAD, .UPD, .UPDI] → t.crc = s.crc) ∧
    (i ≠ .build → t.tvalid = s.tvalid ∧ ∀ a : Nat, t.table.read a = s.table.read a) ∧
    (s.table.wf → ∀ a : Nat, 256 ≤ a → t.table.read a = s.table.read a) ∧
    (t.err ≠ s.err → readsTable i = true ∧ s.tvalid = false ∧ s.err = 0#4) ∧
    t.inputs = s.inputs

/-! The clock-level ports -/

/-- The handshake (70_reset_and_hazards.md R160, R165, R167): a word presented to a ready block is accepted, and its
response comes exactly `latency` cycles later, block and response being those of `acceptCommand`; a latency above 1 leaves
the block busy. A busy block waits as long as it has cycles left: no response, `cmd_ready` low, the block unchanged,
whatever the host presents, and the cycle after that completes the command. The reading of the ports is log 10's. -/
def Obligations.PortCompletesTheAcceptedCommand : Prop :=
  (∀ (p : Port) (pins : PortPins) (later : List PortPins) (t : State), p.accepts pins = true →
    acceptCommand pins.cmd (p.block.setRsp none) = .next t → (∀ q ∈ later, q.rst = false) →
    later.length + 1 = latency p.clock pins.cmd →
    Port.cycles (pins :: later) p = .next ⟨t, none, p.clock + latency p.clock pins.cmd⟩) ∧
  (∀ (p : Port) (pins : PortPins), p.accepts pins = true → latency p.clock pins.cmd = 1 ∨
    p.cycle pins = .next
      ⟨{ p.block with rsp := none }, some (pins.cmd, latency p.clock pins.cmd - 2), p.clock + 1⟩) ∧
  (∀ (p : Port) (w : CmdWord) (n : Nat) (later : List PortPins), p.busy = some (w, n) → p.block.rsp = none →
    (∀ q ∈ later, q.rst = false) → later.length ≤ n →
    ∃ q, Port.cycles later p = .next q ∧ (∀ now : PortPins, q.rspValid now = false) ∧ q.cmdReady = false ∧ q.block = p.block ∧
      q.busy = some (w, n - later.length)) ∧
  (∀ (p : Port) (w : CmdWord) (pins : PortPins) (t : State), p.busy = some (w, 0) → pins.rst = false →
    acceptCommand w p.block = .next t → p.cycle pins = .next ⟨t, none, p.clock + 1⟩)

/-- Between commands the block keeps its state, a response stays on the port for one cycle, and a ready block is always
found after that (70_reset_and_hazards.md R160, R165, R166). The reading of the ports is log 10's. -/
def Obligations.IdlePortKeepsTheState : Prop :=
  ∀ (p : Port) (pins : PortPins), p.busy = none → pins.rst = false → p.accepts pins = false →
    p.cycle pins = .next ⟨{ p.block with rsp := none }, none, p.clock + 1⟩ ∧
    ∀ q, p.cycle pins = .next q → q.cmdReady = true ∧ ∀ now : PortPins, q.rspValid now = false

/-- A word held on the port while the block executes another command is accepted in the end, after that command's response
and at most one cycle more (70_reset_and_hazards.md R165). The reading of the ports is log 10's. -/
def Obligations.HeldCommandIsAccepted : Prop :=
  ∀ (p : Port) (w : CmdWord) (n : Nat) (pins : PortPins) (t : State), p.busy = some (w, n) → p.block.rsp = none →
    acceptCommand w p.block = .next t → pins.rst = false → pins.cmdValid = true →
    ∃ k q, n + 1 ≤ k ∧ k ≤ n + 2 ∧ Port.cycles (List.replicate k pins) p = .next q ∧ q.accepts pins = true

/-! The host's cracker (48_host_cracker.md): host software over the built table -/

/-- R121 and R128 with 90_conflicts.md C4: the inversion succeeds for every 32-bit value, its four steps end in 0, and
`crack` never answers `InvalidHash`. -/
def Obligations.InversionAlwaysSucceeds : Prop :=
  (∀ ht : Word, ∃ si, invertRegister entry ht = some (si, 0#32)) ∧
  (∀ (ceiling : Nat) (h : Word), crack entry ceiling h ≠ .invalidHash)

/-- R121: the recovered indices are those of the last four updates, last one first, from any register. -/
def Obligations.InversionFindsTheLastFourIndices : Prop :=
  ∀ (r : Word) (x0 x1 x2 x3 : Byte),
    recoverIndices entry
      (~~~ advanceWith entry (advanceWith entry (advanceWith entry (advanceWith entry r x0) x1) x2) x3) =
      some ⟨x3, x2, x1, x0⟩

/-- R125, R126 with 90_conflicts.md C2, C3: a solution is a prefix below the ceiling followed by three digits, and its
published hash is the target. -/
def Obligations.CrackIsSound : Prop :=
  ∀ (ceiling : Nat) (h : Word) (bytes : List Byte), crack entry ceiling h = .solution bytes →
    publishedHash entry bytes = h ∧ ∃ i ds, i < ceiling ∧ DigitString 3 ds ∧ bytes = decimal i ++ ds

/-- R125, R130(b), (c), (e): a string with a prefix below the ceiling and three more digits is found, at the smallest
prefix that has any three-digit completion with the same hash. -/
def Obligations.CrackFindsTheSmallestPrefix : Prop :=
  ∀ (ceiling p : Nat) (ds : List Byte), p < ceiling → DigitString 3 ds →
    ∃ q ds', q ≤ p ∧ DigitString 3 ds' ∧
      crack entry ceiling (publishedHash entry (decimal p ++ ds)) = .solution (decimal q ++ ds') ∧
      (q = p → ds' = ds) ∧
      ∀ (i : Nat) (es : List Byte), i < q → DigitString 3 es →
        publishedHash entry (decimal i ++ es) ≠ publishedHash entry (decimal p ++ ds)

/-- R130(b) with 90_conflicts.md C2: from the hash of a prefix and three more digits, the inversion followed by the
filter and the validator with that prefix recovers exactly those three digits. -/
def Obligations.ValidatorRecoversTheLastThreeDigits : Prop :=
  ∀ (p : Nat) (ds : List Byte), DigitString 3 ds →
    ∃ si, recoverIndices entry (publishedHash entry (decimal p ++ ds)) = some si ∧
      passesFilter entry si p = true ∧ validate entry si p = some ds

/-- R130(f): `crack` answers `NotFound` exactly when no prefix below the ceiling has a three-digit completion with the
hash; a ceiling of 0 is the case that always does. -/
def Obligations.CrackAnswersNotFoundExactly : Prop :=
  ∀ (ceiling : Nat) (h : Word), crack entry ceiling h = .notFound ↔
    ∀ (i : Nat) (ds : List Byte), i < ceiling → DigitString 3 ds → publishedHash entry (decimal i ++ ds) ≠ h

/-- R129: workers whose ranges together are the candidates below the ceiling find what the search in order finds, whatever
the number of workers and the order of their ranges. -/
def Obligations.WorkersFindTheSamePrefix : Prop :=
  ∀ (ceiling : Nat) (ranges : List (Nat × Nat)) (h : Word),
    (∀ i : Nat, i < ceiling ↔ ∃ r ∈ ranges, r.1 ≤ i ∧ i < r.1 + r.2) →
    crackWorkers entry ranges h = crack entry ceiling h

/-- R122 (90_conflicts.md C3): without the filter the validator accepts a prefix whose string has another hash. -/
def Obligations.FilterIsRequired : Prop :=
  ∃ si, recoverIndices entry 0x884863D2#32 = some si ∧ si = ⟨0x01#8, 0x7A#8, 0xCE#8, 0xD9#8⟩ ∧
    passesFilter entry si 30184 = false ∧ validate entry si 30184 = some [0x32#8, 0x38#8, 0x39#8] ∧
    publishedHash entry (decimal 30184 ++ [0x32#8, 0x38#8, 0x39#8]) ≠ 0x884863D2#32

/-- R131: on a built block the candidate's commands return its last index and leave its register, and one validator step
returns the low byte and advances the register. -/
def Obligations.BlockRunsTheCandidateCheck : Prop :=
  (∀ (s : State) (front : List Byte) (last : Byte), Built s → ∃ rs t,
    runCommands (candidateCommands front last) s = .next (rs, t) ∧ t.crc = rawRegister entry (front ++ [last]) ∧
    rs[front.length + 1]? = some (0#4 ++ (0#24 ++ lastIndex entry front last)) ∧ Built t ∧ t.err = s.err) ∧
  (∀ (s : State) (x : Byte), Built s → ∃ t,
    runCommands (validatorStepCommands x) s =
      .next ([0#4 ++ (0#24 ++ s.crc.extractLsb' 0 8), 0#4 ++ advanceWith entry s.crc x], t) ∧
    t.crc = advanceWith entry s.crc x ∧ Built t ∧ t.err = s.err)

/-! The assembler -/

/-- The model's reading of 30_encoding.md R59 (log 12) reads back what it writes, for every command. -/
def Obligations.AssemblerReadsWhatItWrites : Prop :=
  ∀ i : Instr, assembleLine (sourceText i) = some i

/-! The host program on the block, and what a run without error is -/

/-- 48_host_cracker.md R131: set up on any block with the invariant, the host's copy is the table of 256 entries; then, for
every ceiling and list of hashes, the program on the block gives what `crack` gives, and no command is refused: `ERR` stays.
-/
def Obligations.HostProgramCracksOnTheBlock : Prop :=
  (∀ s : State, s.Inv → ∃ copy t, setUp s = some (copy, t) ∧ copy.length = 256 ∧
    (∀ i : Byte, hostTable copy i = entry i) ∧ Built t ∧ t.err = s.err) ∧
  (∀ (ceiling : Nat) (hashes : List Word) (s : State), s.Inv → ∃ t,
    hostProgram ceiling hashes s = some (hashes.map (crack entry ceiling), t) ∧ Built t ∧ t.err = s.err)

/-- One candidate on the block (R122, R123, R131): on a built block, whatever stands in `CRC`, its commands give the
validator's answer where the filter passes and a rejection where it does not; an accepted candidate leaves `CRC` at the raw
register of the whole string. -/
def Obligations.CandidateOnTheBlockIsFilterAndValidator : Prop :=
  ∀ (si : SuffixIndex) (i : Nat) (s : State), Built s → ∃ t,
    candidateOnBlock si i s = some (if passesFilter entry si i = true then validate entry si i else none, t) ∧
    Built t ∧ t.err = s.err ∧
    ∀ ds, passesFilter entry si i = true → validate entry si i = some ds → t.crc = rawRegister entry (decimal i ++ ds)

/-- 60_exceptions.md R145, R154: from `ERR = 0` a run of commands has `ERR = 0` at its end exactly when no command of it was
refused. The right side is log 17's reading for lists of inputs, at a list without resets. -/
def Obligations.ErrZeroAtTheEndMeansNoRefusal : Prop :=
  ∀ (ws : List CmdWord) (s : State), s.Inv → s.err = 0#4 →
    (SafeRun ws s ↔ SafeInputs (ws.map .command) s)

end
end

