-- ==== Sys2Proof/Laws/Decode.lean ====
section
/-! SUPPORT. The fields of encoded words, and that the type of commands admits only well-formed ones. -/

namespace Sys2Proof.Laws

/-- Operand types have the width of their fields, so every command is well formed (30_encoding.md R51, R52). -/
theorem instr_wellFormed (i : Instr) : i.wellFormed = true := by
  cases i <;>
    simp [Instr.wellFormed, SourceLine.wellFormed, Instr.source, Instr.mnemonic, Instr.operand, Mnemonic.format,
      Format.admits] <;>
    exact BitVec.isLt _

/-- The bits of an opcode over an argument. -/
theorem getLsbD_encodeW (op : Byte) (v : Word) (i : Nat) :
    (encodeW op v).getLsbD i = if i < 32 then v.getLsbD i else op.getLsbD (i - 32) := by
  have h := BitVec.getLsbD_append (x := op) (y := v) (i := i)
  exact h

/-- The bits of a byte argument. -/
theorem getLsbD_byteArg (b : Byte) (i : Nat) :
    (0#24 ++ b : Word).getLsbD i = if i < 8 then b.getLsbD i else false := by
  have h := BitVec.getLsbD_append (x := 0#24) (y := b) (i := i)
  simpa [Bool.cond_eq_ite] using h

theorem opOf_encodeW (op : Byte) (v : Word) : opOf (encodeW op v) = op := by
  ext i hi
  rw [opOf, BitVec.getElem_extractLsb', getLsbD_encodeW, if_neg (by omega), Nat.add_sub_cancel_left]
  exact BitVec.getLsbD_eq_getElem hi

theorem argOf_encodeW (op : Byte) (v : Word) : argOf (encodeW op v) = v := by
  ext i hi
  rw [argOf, BitVec.getElem_extractLsb', getLsbD_encodeW, Nat.zero_add, if_pos hi]
  exact BitVec.getLsbD_eq_getElem hi

theorem byteOf_encodeB (op b : Byte) : byteOf (encodeB op b) = b := by
  ext i hi
  rw [byteOf, encodeB, BitVec.getElem_extractLsb', getLsbD_encodeW, Nat.zero_add, if_pos (by omega),
    getLsbD_byteArg, if_pos hi]
  exact BitVec.getLsbD_eq_getElem hi

theorem reservedB_encodeB (op b : Byte) : reservedB (encodeB op b) = 0#24 := by
  ext i hi
  rw [reservedB, encodeB, BitVec.getElem_extractLsb', getLsbD_encodeW, if_pos (by omega), getLsbD_byteArg,
    if_neg (by omega)]
  simp

theorem opOf_encodeZ (op : Byte) : opOf (encodeZ op) = op := opOf_encodeW op 0

theorem argOf_encodeZ (op : Byte) : argOf (encodeZ op) = 0#32 := argOf_encodeW op 0

theorem opOf_encodeB (op b : Byte) : opOf (encodeB op b) = op := opOf_encodeW op _

/-- A word is its opcode over its argument (30_encoding.md R50). -/
theorem encodeW_split (w : CmdWord) : encodeW (opOf w) (argOf w) = w := by
  refine BitVec.eq_of_getLsbD_eq fun i hi => ?_
  rw [getLsbD_encodeW, opOf, argOf]
  simp only [BitVec.getLsbD_extractLsb']
  split
  · simp [*]
  · rw [Nat.add_sub_of_le (by omega)]
    simp [show i - 32 < 8 by omega]

/-- A format B argument with zero reserved bits is its byte (30_encoding.md R51). -/
theorem argOf_of_reservedB (w : CmdWord) (h : reservedB w = 0#24) : argOf w = 0#24 ++ byteOf w := by
  refine BitVec.eq_of_getLsbD_eq fun i hi => ?_
  rw [getLsbD_byteArg, argOf, byteOf]
  simp only [BitVec.getLsbD_extractLsb', hi, decide_true, Bool.true_and, Nat.zero_add]
  split
  · simp [*]
  · have := congrArg (·.getLsbD (i - 8)) h
    simpa [reservedB, show i - 8 < 24 by omega, Nat.add_sub_of_le (show 8 ≤ i by omega)] using this

end Sys2Proof.Laws
end

