-- ==== Sys2Proof/Laws/Generator.lean ====
section
/-! SUPPORT. The generator step is linear over XOR, and so are the shifts and field extractions around it. -/

namespace Sys2Proof.Machine

/-- A logical right shift distributes over XOR (41_register_update.md R101). -/
theorem shiftRight_xor (a b : Word) (n : Nat) : (a ^^^ b) >>> n = (a >>> n) ^^^ (b >>> n) := by
  ext i; simp

@[simp] theorem gstep_zero : gstep 0#32 = 0#32 := by decide

/-- `GSTEP` is linear over XOR. -/
theorem gstep_xor (a b : Word) : gstep (a ^^^ b) = gstep a ^^^ gstep b := by
  have bits (x y p : Word) : x ^^^ y ^^^ p = x ^^^ (y ^^^ p) ∧ x ^^^ y ^^^ p = x ^^^ p ^^^ y ∧
      x ^^^ y = (x ^^^ p) ^^^ (y ^^^ p) := by
    refine ⟨?_, ?_, ?_⟩ <;> ext i <;> simp only [BitVec.getElem_xor] <;>
      cases x[i] <;> cases y[i] <;> cases p[i] <;> rfl
  unfold gstep
  rw [BitVec.getLsbD_xor, shiftRight_xor]
  cases a.getLsbD 0 <;> cases b.getLsbD 0
  · rfl
  · exact (bits _ _ _).1
  · exact (bits _ _ _).2.1
  · exact (bits _ _ POLY).2.2

/-- Any number of generator steps is linear over XOR. -/
theorem gsteps_xor (n : Nat) (a b : Word) : gsteps n (a ^^^ b) = gsteps n a ^^^ gsteps n b := by
  induction n generalizing a b with
  | zero => rfl
  | succ n ih => simp only [gsteps, gstep_xor, ih]

/-- Zero extension is linear over XOR. -/
theorem zext32_xor (a b : Byte) : zext32 (a ^^^ b) = zext32 a ^^^ zext32 b := by
  simp [zext32]

/-- A field of an XOR is the XOR of the fields. -/
theorem extract_xor (a b : Word) (k n : Nat) :
    (a ^^^ b).extractLsb' k n = a.extractLsb' k n ^^^ b.extractLsb' k n := by
  ext i; simp

/-- The low byte of a zero-extended byte is the byte. -/
@[simp] theorem low_zext32 (b : Byte) : (zext32 b).extractLsb' 0 8 = b := by
  ext i hi
  simp only [zext32, BitVec.getElem_extractLsb', BitVec.getLsbD_setWidth, Nat.zero_add,
    BitVec.getLsbD_eq_getElem hi]
  simp [show i < 32 by omega]

/-- The computed index is the low byte of the register XOR the byte (20_memory.md R31). -/
theorem computedIndex_eq (crc : Word) (b : Byte) : computedIndex crc b = crc.extractLsb' 0 8 ^^^ b := by
  rw [computedIndex, extract_xor, low_zext32]

end Sys2Proof.Machine
end

