-- ==== Sys2Proof/Laws/PerInstr.lean ====
section
/-! SUPPORT. Facts about every command as syntax, one lemma per constructor. Family `EncodedFields`: the command is well
formed and its word holds its opcode and its operand where 30_encoding.md R51 and R53 put them, with every reserved bit
zero. -/

namespace Sys2Proof.Laws.EncodedFields

/-- The argument field holds what the format says (30_encoding.md R51). -/
def argumentIs (w : CmdWord) : Format → Option Nat → Prop
  | .Z, operand => argOf w = 0#32 ∧ operand = none
  | .B, operand => reservedB w = 0#24 ∧ operand = some (byteOf w).toNat
  | .W, operand => operand = some (argOf w).toNat

def Statement (i : Instr) : Prop :=
  i.wellFormed = true ∧ opOf (encode i) = i.mnemonic.opcode ∧
    argumentIs (encode i) i.mnemonic.format i.operand

theorem byteOperand (op b : Byte) : some b.toNat = some (byteOf (encodeB op b)).toNat := by rw [byteOf_encodeB]

theorem wordOperand (op : Byte) (v : Word) : some v.toNat = some (argOf (encodeW op v)).toNat := by
  rw [argOf_encodeW]

theorem nop : Statement .nop := ⟨instr_wellFormed _, opOf_encodeZ _, argOf_encodeZ _, rfl⟩
theorem build : Statement .build := ⟨instr_wellFormed _, opOf_encodeZ _, argOf_encodeZ _, rfl⟩
theorem rdtab (b : Byte) : Statement (.rdtab b) :=
  ⟨instr_wellFormed _, opOf_encodeB _ _, reservedB_encodeB _ _, byteOperand _ b⟩
theorem init : Statement .init := ⟨instr_wellFormed _, opOf_encodeZ _, argOf_encodeZ _, rfl⟩
theorem load (v : Word) : Statement (.load v) :=
  ⟨instr_wellFormed _, opOf_encodeW _ _, wordOperand _ v⟩
theorem upd (b : Byte) : Statement (.upd b) :=
  ⟨instr_wellFormed _, opOf_encodeB _ _, reservedB_encodeB _ _, byteOperand _ b⟩
theorem updi (x : Byte) : Statement (.updi x) :=
  ⟨instr_wellFormed _, opOf_encodeB _ _, reservedB_encodeB _ _, byteOperand _ x⟩
theorem idx (b : Byte) : Statement (.idx b) :=
  ⟨instr_wellFormed _, opOf_encodeB _ _, reservedB_encodeB _ _, byteOperand _ b⟩
theorem rdcrc : Statement .rdcrc := ⟨instr_wellFormed _, opOf_encodeZ _, argOf_encodeZ _, rfl⟩
theorem rdst : Statement .rdst := ⟨instr_wellFormed _, opOf_encodeZ _, argOf_encodeZ _, rfl⟩

end Sys2Proof.Laws.EncodedFields
end

