-- ==== Sys2Proof/Laws/Memory.lean ====
section
/-! SUPPORT. The table memory: a read after a write, the canonical form, and what the build loop leaves. -/

namespace Sys2Proof.Machine.Memory

/-- A read after a write to the same index gives the value written. -/
@[simp] theorem read_write_same (m : Memory) (i : Nat) (v : Word) : Memory.read (Memory.write m i v) i = some v := by
  induction m with
  | nil => simp [Memory.write, Memory.read]
  | cons c m ih =>
    obtain ⟨k, u⟩ := c
    unfold Memory.write
    split
    · simp [Memory.read]
    · split
      · simp [Memory.read]
      · rename_i h₁ h₂
        simp [Memory.read, ih, Ne.symm h₂]

/-- A write leaves every other entry alone. -/
theorem read_write_ne (m : Memory) {i j : Nat} (v : Word) (h : j ≠ i) :
    Memory.read (Memory.write m i v) j = Memory.read m j := by
  induction m with
  | nil => simp [Memory.write, Memory.read, h.symm]
  | cons c m ih =>
    obtain ⟨k, u⟩ := c
    unfold Memory.write
    split
    · simp [Memory.read, h.symm]
    · split
      · rename_i h₁ h₂
        simp [Memory.read, h.symm, ← h₂]
      · simp [Memory.read, ih]

/-- The indices of a memory after a write are those before it and the one written. -/
theorem mem_write {m : Memory} {i : Nat} {v : Word} {c : Nat × Word} (h : c ∈ Memory.write m i v) :
    c = (i, v) ∨ c ∈ m := by
  induction m with
  | nil => simpa [Memory.write] using h
  | cons d m ih =>
    obtain ⟨k, u⟩ := d
    unfold Memory.write at h
    split at h
    · simpa using h
    · split at h
      · simp only [List.mem_cons] at h ⊢
        tauto
      · simp only [List.mem_cons] at h ⊢
        rcases h with h | h
        · exact .inr (.inl h)
        · exact (ih h).imp_right .inr

/-- A write of an index of the table keeps the canonical form. -/
theorem wf_write {m : Memory} (hm : m.wf) {i : Nat} (hi : i < ENTRIES) (v : Word) : (Memory.write m i v).wf := by
  refine ⟨?_, fun c hc => ?_⟩
  · obtain ⟨hp, -⟩ := hm
    induction m with
    | nil => simp [Memory.write]
    | cons d m ih =>
      obtain ⟨k, u⟩ := d
      rw [List.pairwise_cons] at hp
      unfold Memory.write
      split
      · rename_i h
        refine List.pairwise_cons.mpr ⟨fun c hc => ?_, List.pairwise_cons.mpr hp⟩
        rcases List.mem_cons.mp hc with rfl | hc
        · exact h
        · exact h.trans (hp.1 c hc)
      · split
        · rename_i h
          subst h
          exact List.pairwise_cons.mpr ⟨hp.1, hp.2⟩
        · rename_i h₁ h₂
          refine List.pairwise_cons.mpr ⟨fun c hc => ?_, ih hp.2⟩
          rcases mem_write hc with rfl | hc
          · exact show k < i by omega
          · exact hp.1 c hc
  · rcases mem_write hc with rfl | hc
    · exact hi
    · exact hm.2 c hc

/-- The empty memory is in canonical form. -/
theorem wf_nil : Memory.wf [] := by simp [Memory.wf]

/-- The build loop with nothing left to write. -/
@[simp] theorem buildBelow_zero (m : Memory) : buildBelow 0 m = m := by rw [buildBelow]

/-- The build loop writes its highest entry, then the ones below. -/
theorem buildBelow_succ (n : Nat) (m : Memory) :
    buildBelow (n + 1) m = buildBelow n (Memory.write m n (entry (BitVec.ofNat 8 n))) := by rw [buildBelow]

/-- The build loop keeps the canonical form. -/
theorem wf_buildBelow {m : Memory} (hm : m.wf) : ∀ n ≤ ENTRIES, (buildBelow n m).wf := by
  intro n
  induction n generalizing m with
  | zero => simpa using hm
  | succ n ih =>
    intro hn
    rw [buildBelow_succ]
    exact ih (wf_write hm (by omega) _) (by omega)

/-- The built table is in canonical form. -/
theorem wf_builtTable : builtTable.wf := wf_buildBelow wf_nil _ le_rfl

/-- What the build loop leaves: `ENTRY` below its bound, everything else as before. -/
theorem read_buildBelow (n : Nat) (m : Memory) (i : Nat) :
    (buildBelow n m).read i = if i < n then some (entry (BitVec.ofNat 8 i)) else m.read i := by
  induction n generalizing m with
  | zero => simp
  | succ n ih =>
    rw [buildBelow_succ, ih]
    by_cases h : i = n
    · subst h
      simp
    · rw [read_write_ne m _ h]
      simp only [show i < n + 1 ↔ i < n by omega]

/-- Every entry of the built table is `ENTRY` of its index. -/
theorem read_builtTable (i : Byte) : builtTable.read i.toNat = some (entry i) := by
  rw [builtTable, read_buildBelow, if_pos (show i.toNat < ENTRIES from i.isLt), BitVec.ofNat_toNat]
  simp

/-- A memory in canonical form lists nothing outside the table. -/
theorem read_outside {m : Memory} (h : m.wf) {i : Nat} (hi : ENTRIES ≤ i) : m.read i = none := by
  obtain ⟨-, hb⟩ := h
  induction m with
  | nil => rfl
  | cons c m ih =>
    have hc : c.1 ≠ i := by
      have := hb c (by simp)
      omega
    rw [read, if_neg hc]
    exact ih fun d hd => hb d (by simp [hd])

end Sys2Proof.Machine.Memory
end

