-- ==== Sys2Proof/Laws/State.lean ====
section
/-! SUPPORT. One lemma per field per update of `State`, and the fields of the state after reset. -/

namespace Sys2Proof.Machine.State

@[simp] theorem setCrc_crc (s : State) (v : Word) : (s.setCrc v).crc = v := rfl
@[simp] theorem setCrc_table (s : State) (v : Word) : (s.setCrc v).table = s.table := rfl
@[simp] theorem setCrc_tvalid (s : State) (v : Word) : (s.setCrc v).tvalid = s.tvalid := rfl
@[simp] theorem setCrc_err (s : State) (v : Word) : (s.setCrc v).err = s.err := rfl
@[simp] theorem setCrc_rsp (s : State) (v : Word) : (s.setCrc v).rsp = s.rsp := rfl
@[simp] theorem setCrc_inputs (s : State) (v : Word) : (s.setCrc v).inputs = s.inputs := rfl
@[simp] theorem setCrc_entryAt (s : State) (v : Word) (i : Byte) : (s.setCrc v).entryAt i = s.entryAt i := rfl

@[simp] theorem setTable_crc (s : State) (m : Memory) : (s.setTable m).crc = s.crc := rfl
@[simp] theorem setTable_table (s : State) (m : Memory) : (s.setTable m).table = m := rfl
@[simp] theorem setTable_tvalid (s : State) (m : Memory) : (s.setTable m).tvalid = s.tvalid := rfl
@[simp] theorem setTable_err (s : State) (m : Memory) : (s.setTable m).err = s.err := rfl
@[simp] theorem setTable_rsp (s : State) (m : Memory) : (s.setTable m).rsp = s.rsp := rfl
@[simp] theorem setTable_inputs (s : State) (m : Memory) : (s.setTable m).inputs = s.inputs := rfl
@[simp] theorem setTable_entryAt (s : State) (m : Memory) (i : Byte) : (s.setTable m).entryAt i = m.read i.toNat := rfl

@[simp] theorem setTvalid_crc (s : State) (b : Bool) : (s.setTvalid b).crc = s.crc := rfl
@[simp] theorem setTvalid_table (s : State) (b : Bool) : (s.setTvalid b).table = s.table := rfl
@[simp] theorem setTvalid_tvalid (s : State) (b : Bool) : (s.setTvalid b).tvalid = b := rfl
@[simp] theorem setTvalid_err (s : State) (b : Bool) : (s.setTvalid b).err = s.err := rfl
@[simp] theorem setTvalid_rsp (s : State) (b : Bool) : (s.setTvalid b).rsp = s.rsp := rfl
@[simp] theorem setTvalid_inputs (s : State) (b : Bool) : (s.setTvalid b).inputs = s.inputs := rfl
@[simp] theorem setTvalid_entryAt (s : State) (b : Bool) (i : Byte) : (s.setTvalid b).entryAt i = s.entryAt i := rfl

@[simp] theorem setErr_crc (s : State) (e : BitVec 4) : (s.setErr e).crc = s.crc := rfl
@[simp] theorem setErr_table (s : State) (e : BitVec 4) : (s.setErr e).table = s.table := rfl
@[simp] theorem setErr_tvalid (s : State) (e : BitVec 4) : (s.setErr e).tvalid = s.tvalid := rfl
@[simp] theorem setErr_err (s : State) (e : BitVec 4) : (s.setErr e).err = e := rfl
@[simp] theorem setErr_rsp (s : State) (e : BitVec 4) : (s.setErr e).rsp = s.rsp := rfl
@[simp] theorem setErr_inputs (s : State) (e : BitVec 4) : (s.setErr e).inputs = s.inputs := rfl
@[simp] theorem setErr_entryAt (s : State) (e : BitVec 4) (i : Byte) : (s.setErr e).entryAt i = s.entryAt i := rfl

@[simp] theorem setRsp_crc (s : State) (r : Option RspWord) : (s.setRsp r).crc = s.crc := rfl
@[simp] theorem setRsp_table (s : State) (r : Option RspWord) : (s.setRsp r).table = s.table := rfl
@[simp] theorem setRsp_tvalid (s : State) (r : Option RspWord) : (s.setRsp r).tvalid = s.tvalid := rfl
@[simp] theorem setRsp_err (s : State) (r : Option RspWord) : (s.setRsp r).err = s.err := rfl
@[simp] theorem setRsp_rsp (s : State) (r : Option RspWord) : (s.setRsp r).rsp = r := rfl
@[simp] theorem setRsp_inputs (s : State) (r : Option RspWord) : (s.setRsp r).inputs = s.inputs := rfl
@[simp] theorem setRsp_entryAt (s : State) (r : Option RspWord) (i : Byte) : (s.setRsp r).entryAt i = s.entryAt i := rfl

@[simp] theorem setInputs_crc (s : State) (l : List PortInput) : (s.setInputs l).crc = s.crc := rfl
@[simp] theorem setInputs_table (s : State) (l : List PortInput) : (s.setInputs l).table = s.table := rfl
@[simp] theorem setInputs_tvalid (s : State) (l : List PortInput) : (s.setInputs l).tvalid = s.tvalid := rfl
@[simp] theorem setInputs_err (s : State) (l : List PortInput) : (s.setInputs l).err = s.err := rfl
@[simp] theorem setInputs_rsp (s : State) (l : List PortInput) : (s.setInputs l).rsp = s.rsp := rfl
@[simp] theorem setInputs_inputs (s : State) (l : List PortInput) : (s.setInputs l).inputs = l := rfl
@[simp] theorem setInputs_entryAt (s : State) (l : List PortInput) (i : Byte) : (s.setInputs l).entryAt i = s.entryAt i := rfl

@[simp] theorem setCrc_setCrc (s : State) (x y : Word) : (s.setCrc x).setCrc y = s.setCrc y := rfl
@[simp] theorem setTable_setTable (s : State) (x y : Memory) : (s.setTable x).setTable y = s.setTable y := rfl
@[simp] theorem setTvalid_setTvalid (s : State) (x y : Bool) : (s.setTvalid x).setTvalid y = s.setTvalid y := rfl
@[simp] theorem setErr_setErr (s : State) (x y : BitVec 4) : (s.setErr x).setErr y = s.setErr y := rfl
@[simp] theorem setRsp_setRsp (s : State) (x y : Option RspWord) : (s.setRsp x).setRsp y = s.setRsp y := rfl
@[simp] theorem setInputs_setInputs (s : State) (x y : List PortInput) : (s.setInputs x).setInputs y = s.setInputs y := rfl

@[simp] theorem reset_crc : reset.crc = 0xFFFFFFFF#32 := rfl
@[simp] theorem reset_table : reset.table = [] := rfl
@[simp] theorem reset_tvalid : reset.tvalid = false := rfl
@[simp] theorem reset_err : reset.err = 0#4 := rfl
@[simp] theorem reset_rsp : reset.rsp = none := rfl
@[simp] theorem reset_inputs : reset.inputs = [] := rfl

@[simp] theorem respond_crc (s : State) (d : Word) : (s.respond d).crc = s.crc := rfl
@[simp] theorem respond_table (s : State) (d : Word) : (s.respond d).table = s.table := rfl
@[simp] theorem respond_tvalid (s : State) (d : Word) : (s.respond d).tvalid = s.tvalid := rfl
@[simp] theorem respond_err (s : State) (d : Word) : (s.respond d).err = s.err := rfl
@[simp] theorem respond_rsp (s : State) (d : Word) : (s.respond d).rsp = some (rspWord okCode d) := rfl
@[simp] theorem respond_inputs (s : State) (d : Word) : (s.respond d).inputs = s.inputs := rfl

@[simp] theorem raise_crc (s : State) (e : BlockError) : (s.raise e).crc = s.crc := rfl
@[simp] theorem raise_table (s : State) (e : BlockError) : (s.raise e).table = s.table := rfl
@[simp] theorem raise_tvalid (s : State) (e : BlockError) : (s.raise e).tvalid = s.tvalid := rfl
@[simp] theorem raise_err (s : State) (e : BlockError) : (s.raise e).err = stickyErr s.err e.code := rfl
@[simp] theorem raise_rsp (s : State) (e : BlockError) : (s.raise e).rsp = some (rspWord e.code 0) := rfl
@[simp] theorem raise_inputs (s : State) (e : BlockError) : (s.raise e).inputs = s.inputs := rfl

@[simp] theorem update_crc (s : State) (t : Word) : (s.update t).crc = accumulate s.crc t := rfl
@[simp] theorem update_table (s : State) (t : Word) : (s.update t).table = s.table := rfl
@[simp] theorem update_tvalid (s : State) (t : Word) : (s.update t).tvalid = s.tvalid := rfl
@[simp] theorem update_err (s : State) (t : Word) : (s.update t).err = s.err := rfl
@[simp] theorem update_rsp (s : State) (t : Word) : (s.update t).rsp = some (rspWord okCode (accumulate s.crc t)) := rfl
@[simp] theorem update_inputs (s : State) (t : Word) : (s.update t).inputs = s.inputs := rfl

@[simp] theorem applyReset_crc (s : State) : s.applyReset.crc = 0xFFFFFFFF#32 := rfl
@[simp] theorem applyReset_table (s : State) : s.applyReset.table = [] := rfl
@[simp] theorem applyReset_tvalid (s : State) : s.applyReset.tvalid = false := rfl
@[simp] theorem applyReset_err (s : State) : s.applyReset.err = 0#4 := rfl
@[simp] theorem applyReset_rsp (s : State) : s.applyReset.rsp = none := rfl
@[simp] theorem applyReset_inputs (s : State) : s.applyReset.inputs = s.inputs := rfl

end Sys2Proof.Machine.State
end

