-- ==== Sys2Proof/Laws/Ops.lean ====
section
/-! SUPPORT. What each shared operation can do, said once: the response fields, the refusal, the guarded read. -/

namespace Sys2Proof.Machine

/-- The bits of a response word (30_encoding.md R56). -/
theorem getLsbD_rspWord (c : BitVec 4) (d : Word) (i : Nat) :
    (rspWord c d).getLsbD i = if i < 32 then d.getLsbD i else c.getLsbD (i - 32) := by
  have h := BitVec.getLsbD_append (x := c) (y := d) (i := i)
  exact h

@[simp] theorem rspCode_rspWord (c : BitVec 4) (d : Word) : rspCode (rspWord c d) = c := by
  ext i hi
  rw [rspCode, BitVec.getElem_extractLsb', getLsbD_rspWord, if_neg (by omega), Nat.add_sub_cancel_left]
  exact BitVec.getLsbD_eq_getElem hi

@[simp] theorem rspData_rspWord (c : BitVec 4) (d : Word) : rspData (rspWord c d) = d := by
  ext i hi
  rw [rspData, BitVec.getElem_extractLsb', getLsbD_rspWord, Nat.zero_add, if_pos hi]
  exact BitVec.getLsbD_eq_getElem hi

@[simp] theorem stickyErr_zero (c : BitVec 4) : stickyErr 0#4 c = c := rfl

/-- The first error stays (60_exceptions.md R145). -/
theorem stickyErr_of_ne {e : BitVec 4} (h : e ≠ 0#4) (c : BitVec 4) : stickyErr e c = e := if_neg h

/-- A refusal always leaves an error noted. -/
theorem stickyErr_ne_zero (e : BitVec 4) (b : BlockError) : stickyErr e b.code ≠ 0#4 := by
  unfold stickyErr
  split
  · cases b <;> decide
  · assumption

/-- Everything the guarded read can do when it answers a next state (60_exceptions.md R142). -/
theorem withEntry_next {s t : State} {i : Byte} {k : Word → State} (h : withEntry s i k = .next t) :
    (s.tvalid = false ∧ t = s.raise .noTable) ∨ (s.tvalid = true ∧ ∃ v, s.entryAt i = some v ∧ t = k v) := by
  unfold withEntry at h
  split at h
  · exact .inl ⟨‹_›, by cases h; rfl⟩
  · rename_i hv
    split at h
    · rename_i v hr
      exact .inr ⟨by simpa using hv, v, hr, by cases h; rfl⟩
    · cases h

/-- The guarded read without a table. -/
theorem withEntry_noTable {s : State} (h : s.tvalid = false) (i : Byte) (k : Word → State) :
    withEntry s i k = .next (s.raise .noTable) := if_pos h

/-- The guarded read of an entry that has a value. -/
theorem withEntry_some {s : State} {i : Byte} {v : Word} (h : s.tvalid = true) (hr : s.entryAt i = some v)
    (k : Word → State) : withEntry s i k = .next (k v) := by
  simp [withEntry, h, hr]

end Sys2Proof.Machine
end

