-- ==== Sys2Proof/Laws/Step.lean ====
section
/-! SUPPORT. What a command and a step can do, said once; later proofs cite these instead of unfolding `exec`. -/

namespace Sys2Proof.Machine

/-- The commands that read the table (60_exceptions.md R142), with the index they read at. -/
def tableIndex (s : State) : Instr → Option Byte
  | .rdtab b => some b
  | .upd b => some (computedIndex s.crc b)
  | .updi x => some x
  | _ => none

/-- Everything a command can do when it answers a next state: answer and change nothing, load the register, do nothing
or fill the table as a BUILD, be refused without a table, or update the register with a table entry. -/
theorem exec_next {i : Instr} {s t : State} (h : exec i s = .next t) :
    (∃ d, t = s.respond d ∧ i.mnemonic ∈ [.NOP, .RDTAB, .IDX, .RDCRC, .RDST] ∧
      ((tableIndex s i).isSome → s.tvalid = true)) ∨
    (∃ v, t = (s.setCrc v).respond v ∧ (i = .init ∧ v = INITV ∨ i = .load v)) ∨
    (i = .build ∧ s.tvalid = true ∧ t = s.respond 0) ∨
    (i = .build ∧ s.tvalid = false ∧ t = ((s.setTable builtTable).setTvalid true).respond 0) ∨
    (s.tvalid = false ∧ (tableIndex s i).isSome ∧ t = s.raise .noTable) ∨
    (∃ x v, s.tvalid = true ∧ s.entryAt x = some v ∧ tableIndex s i = some x ∧
      ((∃ b, i = .upd b) ∨ ∃ y, i = .updi y) ∧ t = s.update v) := by
  cases i with
  | nop => exact .inl ⟨0, by cases h; rfl, by decide, by simp [tableIndex]⟩
  | build =>
    simp only [exec, execBuild] at h
    split at h
    · exact .inr (.inr (.inl ⟨rfl, ‹_›, by cases h; rfl⟩))
    · exact .inr (.inr (.inr (.inl ⟨rfl, Bool.eq_false_iff.mpr ‹_›, by cases h; rfl⟩)))
  | rdtab b =>
    rcases withEntry_next h with ⟨hv, rfl⟩ | ⟨hv, v, _, rfl⟩
    · exact .inr (.inr (.inr (.inr (.inl ⟨hv, rfl, rfl⟩))))
    · exact .inl ⟨v, rfl, by simp [Instr.mnemonic], fun _ => hv⟩
  | init => exact .inr (.inl ⟨INITV, by cases h; rfl, .inl ⟨rfl, rfl⟩⟩)
  | load v => exact .inr (.inl ⟨v, by cases h; rfl, .inr rfl⟩)
  | upd b =>
    rcases withEntry_next h with ⟨hv, rfl⟩ | ⟨hv, v, hr, rfl⟩
    · exact .inr (.inr (.inr (.inr (.inl ⟨hv, rfl, rfl⟩))))
    · exact .inr (.inr (.inr (.inr (.inr ⟨_, v, hv, hr, rfl, .inl ⟨b, rfl⟩, rfl⟩))))
  | updi x =>
    rcases withEntry_next h with ⟨hv, rfl⟩ | ⟨hv, v, hr, rfl⟩
    · exact .inr (.inr (.inr (.inr (.inl ⟨hv, rfl, rfl⟩))))
    · exact .inr (.inr (.inr (.inr (.inr ⟨_, v, hv, hr, rfl, .inr ⟨x, rfl⟩, rfl⟩))))
  | idx b => exact .inl ⟨_, by cases h; rfl, by simp [Instr.mnemonic], by simp [tableIndex]⟩
  | rdcrc => exact .inl ⟨_, by cases h; rfl, by simp [Instr.mnemonic], by simp [tableIndex]⟩
  | rdst => exact .inl ⟨_, by cases h; rfl, by simp [Instr.mnemonic], by simp [tableIndex]⟩

/-- No command is refused as not modelled. -/
theorem exec_ne_refused (i : Instr) (s : State) (r : Refusal) : exec i s ≠ .refused r := by
  have guarded (j : Byte) (k : Word → State) : withEntry s j k ≠ .refused r := by
    unfold withEntry
    split
    · simp
    · split <;> simp
  cases i <;> simp only [exec]
  case rdtab => exact guarded _ _
  case upd => exact guarded _ _
  case updi => exact guarded _ _
  case build =>
    unfold execBuild
    split <;> simp
  all_goals simp [execNop, execInit, execLoad, execIdx, execRdcrc, execRdst]

/-- A state function applied to a next state; a stop stays. -/
def onNext (f : State → State) : Host.Outcome State Fault Refusal → Host.Outcome State Fault Refusal
  | .next s => .next (f s)
  | .fault x => .fault x
  | .refused r => .refused r

/-- The guarded read neither looks at the inputs nor changes them. -/
theorem withEntry_setInputs (s : State) (l : List PortInput) (j : Byte) {k k' : Word → State}
    (hk : ∀ v, k v = (k' v).setInputs l) :
    withEntry (s.setInputs l) j k = onNext (·.setInputs l) (withEntry s j k') := by
  unfold withEntry
  simp only [State.setInputs_tvalid, State.setInputs_entryAt]
  by_cases hv : s.tvalid = false
  · simp only [hv, if_true]; rfl
  · simp only [hv]; cases s.entryAt j <;> simp [onNext, hk]

/-- No command looks at the inputs or changes them. -/
theorem exec_setInputs (i : Instr) (s : State) (l : List PortInput) :
    exec i (s.setInputs l) = onNext (·.setInputs l) (exec i s) := by
  cases i with
  | build =>
    simp only [exec, execBuild, State.setInputs_tvalid]
    by_cases hv : s.tvalid = true <;> simp only [hv] <;> rfl
  | rdtab b => exact withEntry_setInputs _ _ _ fun _ => rfl
  | upd b => exact withEntry_setInputs _ _ _ fun _ => rfl
  | updi x => exact withEntry_setInputs _ _ _ fun _ => rfl
  | nop | init | load v | idx b | rdcrc | rdst => rfl

/-- Everything an accepted word can do (30_encoding.md R61). -/
theorem acceptCommand_next {w : CmdWord} {s t : State} (h : acceptCommand w s = .next t) :
    ((∃ e, decode w = .error e) ∧ t = s.raise .illegal) ∨ ∃ i, decode w = .ok i ∧ exec i s = .next t := by
  unfold acceptCommand at h
  split at h
  · exact .inl ⟨⟨_, ‹_›⟩, by cases h; rfl⟩
  · exact .inr ⟨_, ‹_›, h⟩

/-- An accepted word that decodes. -/
theorem acceptCommand_ok {w : CmdWord} {i : Instr} (h : decode w = .ok i) (s : State) :
    acceptCommand w s = exec i s := by
  simp [acceptCommand, h]

/-- An accepted word that encodes nothing. -/
theorem acceptCommand_error {w : CmdWord} {e : Illegal} (h : decode w = .error e) (s : State) :
    acceptCommand w s = .next (s.raise .illegal) := by
  simp [acceptCommand, h]

/-- An accepted word does not look at the response port: its own response replaces what stood there. -/
theorem acceptCommand_setRsp (w : CmdWord) (s : State) (r : Option RspWord) :
    acceptCommand w (s.setRsp r) = acceptCommand w s := by
  unfold acceptCommand
  cases decode w with
  | error e => rfl
  | ok i => cases i <;> rfl

/-- No input looks at the inputs behind it or changes them. -/
theorem takeInput_setInputs (p : PortInput) (s : State) (l : List PortInput) :
    takeInput p (s.setInputs l) = onNext (·.setInputs l) (takeInput p s) := by
  cases p with
  | command w =>
    simp only [takeInput, acceptCommand]
    cases decode w with
    | error e => rfl
    | ok i => exact exec_setInputs i s l
  | reset => rfl
  | commandCutByReset w => rfl

/-- A step that finds an input takes it. -/
theorem step_input (s : State) (p : PortInput) (rest : List PortInput) :
    step (s.setInputs (p :: rest)) = takeInput p (s.setInputs rest) := rfl

/-- A step that finds no input idles. -/
theorem step_idle {s : State} (h : s.inputs = []) : step s = .next s.idle := by
  simp [step, fetchInput, h]

/-- Everything a step can do. -/
theorem step_next {s t : State} (h : step s = .next t) :
    (s.inputs = [] ∧ t = s.idle) ∨
    ∃ p rest, s.inputs = p :: rest ∧ takeInput p (s.setInputs rest) = .next t := by
  unfold step fetchInput at h
  cases hi : s.inputs with
  | nil => exact .inl ⟨rfl, by simp only [hi] at h; cases h; rfl⟩
  | cons p rest => exact .inr ⟨p, rest, rfl, by simpa only [hi] using h⟩

/-- A run of a first input and the rest. -/
theorem runInputs_cons {p : PortInput} {ps : List PortInput} {s t : State} {rs : List RspWord}
    (h : runInputs (p :: ps) s = .next (rs, t)) :
    ∃ s' rs', takeInput p s = .next s' ∧ runInputs ps s' = .next (rs', t) ∧ rs = s'.rsp.toList ++ rs' := by
  unfold runInputs at h
  split at h
  · cases h
  · cases h
  · rename_i s' hs
    split at h
    · cases h
    · cases h
    · rename_i rs' t' hr
      cases h
      exact ⟨s', rs', hs, hr, rfl⟩

end Sys2Proof.Machine
end

