-- ==== Sys2Proof/Laws/HostProgram.lean ====
section
/-! SUPPORT. What issuing a command can do, said once. -/

namespace Sys2Proof.Machine

/-- A command that executes with data `d` gives the host that data. -/
theorem issue_ok {i : Instr} {s t : State} {d : Word} (h : acceptCommand (encode i) s = .next t)
    (hr : t.rsp = some (rspWord okCode d)) : issue i s = some (d, t) := by
  simp [issue, h, hr]

/-- Everything a command whose response the host takes has done: it was accepted and executed. -/
theorem issue_some {i : Instr} {s t : State} {d : Word} (h : issue i s = some (d, t)) :
    acceptCommand (encode i) s = .next t ∧ ∃ r, t.rsp = some r ∧ rspCode r = okCode ∧ rspData r = d := by
  unfold issue at h
  split at h
  · rename_i u hu
    split at h
    · rename_i r hr
      split at h
      · cases h; exact ⟨hu, r, hr, ‹_›, rfl⟩
      · cases h
    · cases h
  · cases h
  · cases h

/-- Commands after a first one. -/
theorem issueAll_cons {i : Instr} {is : List Instr} {s t u : State} {d : Word} {ds : List Word}
    (h : issue i s = some (d, t)) (hs : issueAll is t = some (ds, u)) :
    issueAll (i :: is) s = some (d :: ds, u) := by
  simp [issueAll, h, hs]

end Sys2Proof.Machine
end

