-- ==== Sys2Proof/Tests/Slice0.lean ====
section
/-! SUPPORT. The model's own tests. Expected values come from spec/95_test_vectors.md (named by its row) or from the
worked example of the rule a test names. -/

namespace Sys2Proof.Tests
open Sys2Proof.Machine Sys2Proof.Spec

/-! Helpers -/

/-- The block after reset and BUILD, with a register value (table of 95 section 2). -/
def built (crc : Word) : State := { State.reset with table := builtTable, tvalid := true, crc := crc }

/-- Response, register, TVALID and ERR after an outcome. -/
def view (o : Host.Outcome State Fault Refusal) : Option (Option RspWord × Word × Bool × BitVec 4) :=
  match o with
  | .next s => some (s.rsp, s.crc, s.tvalid, s.err)
  | .fault _ => none
  | .refused _ => none

/-- One step that takes this command word. -/
def run1 (w : CmdWord) (s : State) : Option (Option RspWord × Word × Bool × BitVec 4) :=
  view (step (s.setInputs [.command w]))

/-- The responses of a run, and register, TVALID and ERR at its end. -/
def runView (ws : List CmdWord) (s : State) : Option (List RspWord × Word × Bool × BitVec 4) :=
  match runWords ws s with
  | .next (rs, t) => some (rs, t.crc, t.tvalid, t.err)
  | .fault _ => none
  | .refused _ => none

/-! Well-formedness: an ill-formed source line for each check -/

theorem test_wf_Z_refuses_operand : SourceLine.wellFormed ⟨.NOP, some 0⟩ = false := by decide
theorem test_wf_B_needs_operand : SourceLine.wellFormed ⟨.UPD, none⟩ = false := by decide
theorem test_wf_B_refuses_256 : SourceLine.wellFormed ⟨.RDTAB, some 256⟩ = false := by decide
theorem test_wf_W_needs_operand : SourceLine.wellFormed ⟨.LOAD, none⟩ = false := by decide
theorem test_wf_W_refuses_33_bits : SourceLine.wellFormed ⟨.LOAD, some 0x100000000⟩ = false := by decide
theorem test_wf_limits : SourceLine.wellFormed ⟨.UPD, some 255⟩ = true ∧
    SourceLine.wellFormed ⟨.LOAD, some 0xFFFFFFFF⟩ = true ∧ SourceLine.wellFormed ⟨.RDST, none⟩ = true := by decide

/-! Decoding: words written out bit by bit from 30_encoding.md R51 and R53 -/

theorem test_decode_nop : decode 0b0000000000000000000000000000000000000000 = .ok .nop := by decide
theorem test_decode_build : decode 0b0000000100000000000000000000000000000000 = .ok .build := by decide
theorem test_decode_rdtab : decode 0b0000001000000000000000000000000010110001 = .ok (.rdtab 0xB1) := by decide
theorem test_decode_init : decode 0b0001000000000000000000000000000000000000 = .ok .init := by decide
theorem test_decode_load : decode 0b0001000101111100001000110001000001001000 = .ok (.load 0x7C231048) := by decide
theorem test_decode_upd : decode 0b0001001000000000000000000000000000110001 = .ok (.upd 0x31) := by decide
theorem test_decode_updi : decode 0b0001001100000000000000000000000011001110 = .ok (.updi 0xCE) := by decide
theorem test_decode_idx : decode 0b0001010000000000000000000000000000110011 = .ok (.idx 0x33) := by decide
theorem test_decode_rdcrc : decode 0b0001010100000000000000000000000000000000 = .ok .rdcrc := by decide
theorem test_decode_rdst : decode 0b0010000000000000000000000000000000000000 = .ok .rdst := by decide

/-- X2, X7, X9, X8, T8, U23, U24: illegal words, and why. -/
theorem test_decode_illegal :
    decode 0x0000000001 = .error (.reservedBitSet .NOP) ∧ decode 0x0300000000 = .error (.undefinedOpcode 0x03) ∧
    decode 0x1600000000 = .error (.undefinedOpcode 0x16) ∧ decode 0xFFFFFFFFFF = .error (.undefinedOpcode 0xFF) ∧
    decode 0x0200000100 = .error (.reservedBitSet .RDTAB) ∧ decode 0x1200000131 = .error (.reservedBitSet .UPD) ∧
    decode 0x1000000001 = .error (.reservedBitSet .INIT) := by decide

theorem test_encode_words : encode (.upd 0x31) = 0x1200000031 ∧ encode (.load 0xB0ACBB32) = 0x11B0ACBB32 ∧
    encode (.rdtab 0xFF) = 0x02000000FF ∧ encode .rdst = 0x2000000000 := by decide

theorem test_table_word : decodeTableWord 40 0x13000000CE = some (.updi 0xCE) ∧ decodeTableWord 40 0x0300000000 = none ∧
    decodeTableWord 8 0 = some .nop := by decide

/-! The generator: 95 section 3 and the whole table of section 2 -/

/-- G1 to G8. -/
theorem test_gstep : gstep 0x00000000 = 0x00000000 ∧ gstep 0x00000001 = 0xEDB88320 ∧ gstep 0x00000002 = 0x00000001 ∧
    gstep 0x80000000 = 0x40000000 ∧ gstep 0xFFFFFFFF = 0x92477CDF ∧ gstep 0xEDB88320 = 0x76DC4190 ∧
    gstep 0x000000FF = 0xEDB8835F ∧ gstep 0x00000003 = 0xEDB88321 := by decide

def tableRows0 : List Word :=
  [0x00000000, 0x77073096, 0xEE0E612C, 0x990951BA, 0x076DC419, 0x706AF48F, 0xE963A535, 0x9E6495A3,
   0x0EDB8832, 0x79DCB8A4, 0xE0D5E91E, 0x97D2D988, 0x09B64C2B, 0x7EB17CBD, 0xE7B82D07, 0x90BF1D91,
   0x1DB71064, 0x6AB020F2, 0xF3B97148, 0x84BE41DE, 0x1ADAD47D, 0x6DDDE4EB, 0xF4D4B551, 0x83D385C7,
   0x136C9856, 0x646BA8C0, 0xFD62F97A, 0x8A65C9EC, 0x14015C4F, 0x63066CD9, 0xFA0F3D63, 0x8D080DF5]

def tableRows1 : List Word :=
  [0x3B6E20C8, 0x4C69105E, 0xD56041E4, 0xA2677172, 0x3C03E4D1, 0x4B04D447, 0xD20D85FD, 0xA50AB56B,
   0x35B5A8FA, 0x42B2986C, 0xDBBBC9D6, 0xACBCF940, 0x32D86CE3, 0x45DF5C75, 0xDCD60DCF, 0xABD13D59,
   0x26D930AC, 0x51DE003A, 0xC8D75180, 0xBFD06116, 0x21B4F4B5, 0x56B3C423, 0xCFBA9599, 0xB8BDA50F,
   0x2802B89E, 0x5F058808, 0xC60CD9B2, 0xB10BE924, 0x2F6F7C87, 0x58684C11, 0xC1611DAB, 0xB6662D3D]

def tableRows2 : List Word :=
  [0x76DC4190, 0x01DB7106, 0x98D220BC, 0xEFD5102A, 0x71B18589, 0x06B6B51F, 0x9FBFE4A5, 0xE8B8D433,
   0x7807C9A2, 0x0F00F934, 0x9609A88E, 0xE10E9818, 0x7F6A0DBB, 0x086D3D2D, 0x91646C97, 0xE6635C01,
   0x6B6B51F4, 0x1C6C6162, 0x856530D8, 0xF262004E, 0x6C0695ED, 0x1B01A57B, 0x8208F4C1, 0xF50FC457,
   0x65B0D9C6, 0x12B7E950, 0x8BBEB8EA, 0xFCB9887C, 0x62DD1DDF, 0x15DA2D49, 0x8CD37CF3, 0xFBD44C65]

def tableRows3 : List Word :=
  [0x4DB26158, 0x3AB551CE, 0xA3BC0074, 0xD4BB30E2, 0x4ADFA541, 0x3DD895D7, 0xA4D1C46D, 0xD3D6F4FB,
   0x4369E96A, 0x346ED9FC, 0xAD678846, 0xDA60B8D0, 0x44042D73, 0x33031DE5, 0xAA0A4C5F, 0xDD0D7CC9,
   0x5005713C, 0x270241AA, 0xBE0B1010, 0xC90C2086, 0x5768B525, 0x206F85B3, 0xB966D409, 0xCE61E49F,
   0x5EDEF90E, 0x29D9C998, 0xB0D09822, 0xC7D7A8B4, 0x59B33D17, 0x2EB40D81, 0xB7BD5C3B, 0xC0BA6CAD]

def tableRows4 : List Word :=
  [0xEDB88320, 0x9ABFB3B6, 0x03B6E20C, 0x74B1D29A, 0xEAD54739, 0x9DD277AF, 0x04DB2615, 0x73DC1683,
   0xE3630B12, 0x94643B84, 0x0D6D6A3E, 0x7A6A5AA8, 0xE40ECF0B, 0x9309FF9D, 0x0A00AE27, 0x7D079EB1,
   0xF00F9344, 0x8708A3D2, 0x1E01F268, 0x6906C2FE, 0xF762575D, 0x806567CB, 0x196C3671, 0x6E6B06E7,
   0xFED41B76, 0x89D32BE0, 0x10DA7A5A, 0x67DD4ACC, 0xF9B9DF6F, 0x8EBEEFF9, 0x17B7BE43, 0x60B08ED5]

def tableRows5 : List Word :=
  [0xD6D6A3E8, 0xA1D1937E, 0x38D8C2C4, 0x4FDFF252, 0xD1BB67F1, 0xA6BC5767, 0x3FB506DD, 0x48B2364B,
   0xD80D2BDA, 0xAF0A1B4C, 0x36034AF6, 0x41047A60, 0xDF60EFC3, 0xA867DF55, 0x316E8EEF, 0x4669BE79,
   0xCB61B38C, 0xBC66831A, 0x256FD2A0, 0x5268E236, 0xCC0C7795, 0xBB0B4703, 0x220216B9, 0x5505262F,
   0xC5BA3BBE, 0xB2BD0B28, 0x2BB45A92, 0x5CB36A04, 0xC2D7FFA7, 0xB5D0CF31, 0x2CD99E8B, 0x5BDEAE1D]

def tableRows6 : List Word :=
  [0x9B64C2B0, 0xEC63F226, 0x756AA39C, 0x026D930A, 0x9C0906A9, 0xEB0E363F, 0x72076785, 0x05005713,
   0x95BF4A82, 0xE2B87A14, 0x7BB12BAE, 0x0CB61B38, 0x92D28E9B, 0xE5D5BE0D, 0x7CDCEFB7, 0x0BDBDF21,
   0x86D3D2D4, 0xF1D4E242, 0x68DDB3F8, 0x1FDA836E, 0x81BE16CD, 0xF6B9265B, 0x6FB077E1, 0x18B74777,
   0x88085AE6, 0xFF0F6A70, 0x66063BCA, 0x11010B5C, 0x8F659EFF, 0xF862AE69, 0x616BFFD3, 0x166CCF45]

def tableRows7 : List Word :=
  [0xA00AE278, 0xD70DD2EE, 0x4E048354, 0x3903B3C2, 0xA7672661, 0xD06016F7, 0x4969474D, 0x3E6E77DB,
   0xAED16A4A, 0xD9D65ADC, 0x40DF0B66, 0x37D83BF0, 0xA9BCAE53, 0xDEBB9EC5, 0x47B2CF7F, 0x30B5FFE9,
   0xBDBDF21C, 0xCABAC28A, 0x53B39330, 0x24B4A3A6, 0xBAD03605, 0xCDD70693, 0x54DE5729, 0x23D967BF,
   0xB3667A2E, 0xC4614AB8, 0x5D681B02, 0x2A6F2B94, 0xB40BBE37, 0xC30C8EA1, 0x5A05DF1B, 0x2D02EF8D]

/-- Every entry of the built table is that of 95 section 2 (40_table_generator.md R78). -/
theorem test_table : builtTable.map (·.2) = tableRows0 ++ tableRows1 ++ tableRows2 ++ tableRows3 ++ tableRows4 ++ tableRows5 ++ tableRows6 ++ tableRows7 := by
  decide +kernel

/-! Commands: vectors of 95 sections 3 to 5 -/

/-- X1. -/
theorem test_nop : run1 0x0000000000 (built 0x12345678) = some (some 0x000000000, 0x12345678, true, 0) := by
  decide
/-- T1. -/
theorem test_build : run1 0x0100000000 State.reset = some (some 0x000000000, 0xFFFFFFFF, true, 0) := by decide
/-- T2. -/
theorem test_build_again : run1 0x0100000000 (built 1) = some (some 0x000000000, 1, true, 0) := by decide
/-- T6. -/
theorem test_rdtab : run1 0x02000000FF (built 0) = some (some 0x02D02EF8D, 0, true, 0) := by decide +kernel
/-- T7. -/
theorem test_rdtab_unbuilt : run1 0x0200000000 State.reset = some (some 0x200000000, 0xFFFFFFFF, false, 2) := by
  decide
/-- U17. -/
theorem test_init : run1 0x1000000000 (built 0x12345678) = some (some 0x0FFFFFFFF, 0xFFFFFFFF, true, 0) := by decide
/-- U18. -/
theorem test_load : run1 0x117C231048 State.reset = some (some 0x07C231048, 0x7C231048, false, 0) := by decide
/-- U7: the index depends on the register. -/
theorem test_upd : run1 0x1200000000 (built 0x12345678) = some (some 0x05ECCCD58, 0x5ECCCD58, true, 0) := by
  decide +kernel
/-- U9: the shift is logical. -/
theorem test_upd_top_bit : run1 0x1200000001 (built 0x80000000) = some (some 0x077873096, 0x77873096, true, 0) := by
  decide +kernel
/-- U12: the index does not depend on the register. -/
theorem test_updi : run1 0x1300000080 (built 0x12345678) = some (some 0x0EDAAB776, 0xEDAAB776, true, 0) := by
  decide +kernel
/-- U22. -/
theorem test_updi_unbuilt : run1 0x1300000000 State.reset = some (some 0x200000000, 0xFFFFFFFF, false, 2) := by
  decide
/-- U14. -/
theorem test_idx : run1 0x1400000033 (built 0xB0ACBB32) = some (some 0x000000001, 0xB0ACBB32, true, 0) := by decide
/-- U15, with `TVALID = 0`. -/
theorem test_idx_unbuilt : run1 0x1400000031 State.reset = some (some 0x0000000CE, 0xFFFFFFFF, false, 0) := by decide
/-- U20. -/
theorem test_rdcrc : run1 0x1500000000 (built 0x340BC6D9) = some (some 0x0340BC6D9, 0x340BC6D9, true, 0) := by decide
/-- X5: reading does not clear `ERR`. -/
theorem test_rdst : run1 0x2000000000 ((built 0).setErr 2) = some (some 0x000000021, 0, true, 2) := by decide
/-- X6. -/
theorem test_rdst_unbuilt : run1 0x2000000000 (State.reset.setErr 1) = some (some 0x000000010, 0xFFFFFFFF, false, 1) := by
  decide
/-- X10: an illegal word has priority over a missing table. -/
theorem test_priority : run1 0x1200000131 State.reset = some (some 0x100000000, 0xFFFFFFFF, false, 1) := by decide
/-- X12: the first error is kept. -/
theorem test_sticky : run1 0x0300000000 ((built 0).setErr 2) = some (some 0x100000000, 0, true, 2) := by decide

/-- Reset as an input (70_reset_and_hazards.md R160, R161). -/
theorem test_reset_inputs : view (step ((built 5).setInputs [.reset])) = some (none, 0xFFFFFFFF, false, 0) ∧
    view (step ((built 5).setInputs [.commandCutByReset 0x0100000000])) = some (none, 0xFFFFFFFF, false, 0) := by decide

/-- Nothing presented (60_exceptions.md R150). -/
theorem test_idle : view (step (built 5)) = some (none, 5, true, 0) := by decide

/-! Short runs: the first rows of P3, and P5 -/

/-- P3, its first four rows. -/
theorem test_errors_run : runView [0x1200000031, 0x1500000000, 0x1400000031, 0x0200000000] State.reset =
    some ([0x200000000, 0x0FFFFFFFF, 0x0000000CE, 0x200000000], 0xFFFFFFFF, false, 2) := by decide

/-- P5: no INIT is needed after reset; LOAD resumes a saved register. -/
theorem test_resume_run : runView [0x0100000000, 0x1200000031, 0x1200000032, 0x1000000000, 0x11B0ACBB32, 0x1200000033]
    State.reset =
    some ([0x000000000, 0x07C231048, 0x0B0ACBB32, 0x0FFFFFFFF, 0x0B0ACBB32, 0x077B79C2D], 0x77B79C2D, true, 0) := by
  decide +kernel

/-! Host software: 95 sections 4 and 6 -/

/-- F8 and F9. -/
theorem test_string_registers : rawRegister entry (decimal 123456789) = 0x340BC6D9 ∧
    publishedHash entry (decimal 1234567890123) = 0x74E38C01 := by decide +kernel
/-- F10: leading zeros are characters like any other. -/
theorem test_string_zeros : rawRegister entry [0x30, 0x30, 0x30, 0x30] = 0xF3643B8D := by decide +kernel
theorem test_decimal : decimal 0 = [0x30] ∧ decimal 1234 = [0x31, 0x32, 0x33, 0x34] := by decide
/-- H2, from the text of the document's format example. -/
theorem test_inversion : (parseHash ['a', '1', 'b', '2', 'C', '3', 'D', '4']).bind (recoverIndices entry) =
    some ⟨0x78, 0x8D, 0xB4, 0xA0⟩ := by decide +kernel
/-- H6. -/
theorem test_crack : crack entry 100 0xCBF53A1C = .solution [0x31, 0x32, 0x33, 0x34, 0x35] := by decide +kernel
/-- A smaller ceiling than the prefix of H6 needs. -/
theorem test_crack_not_found : crack entry 12 0xCBF53A1C = .notFound := by decide +kernel

/-! The assembler: examples of 30_encoding.md R59 and R60 -/

theorem test_assemble_char : (assembleLine ['U', 'P', 'D', ' ', '\'', '1', '\'']).map encode = some 0x1200000031 := by
  decide
theorem test_assemble_load : (assembleLine ['L', 'O', 'A', 'D', ' ', '0', 'x', 'F', 'F', 'F', 'F', 'F', 'F', 'F', 'F']).map
    encode = some 0x11FFFFFFFF := by decide
theorem test_assemble_rdtab : (assembleLine ['R', 'D', 'T', 'A', 'B', ' ', '0', 'x', '8', '0', ' ', ';', 'x']).map encode =
    some 0x0200000080 := by decide
theorem test_assemble_range : assembleLine ['U', 'P', 'D', ' ', '2', '5', '6'] = none := by decide
theorem test_assemble_program : assemble [[';'], ['I', 'N', 'I', 'T'], ['U', 'P', 'D', 'S', ' ', quote, '1', '2', quote]] =
    some [.init, .upd 0x31, .upd 0x32] := by decide
theorem test_print : cmdText 0x1200000031 = ['1', '2', '0', '0', '0', '0', '0', '0', '3', '1'] ∧
    rspText 0x07C231048 = ['0', '7', 'C', '2', '3', '1', '0', '4', '8'] := by decide

/-! Witnesses: for each statement with hypotheses, a state and operands that meet them all -/

/-- The invariant holds after reset. -/
theorem reset_inv : State.reset.Inv :=
  ⟨⟨Memory.wf_nil, fun h => by cases h⟩, .inl rfl, fun _ h => by cases h⟩

/-- A built block, with any register. -/
theorem built_built (crc : Word) : Built (built crc) :=
  ⟨⟨⟨Memory.wf_builtTable, fun _ i => Memory.read_builtTable i⟩, .inl rfl, fun _ h => by cases h⟩, rfl⟩

theorem witness_ResetTableCannotBeObserved :
    readsTable (.rdtab 0xFF) = true ∧ readsTable (.upd 0x00) = true ∧ readsTable (.updi 0xFF) = true ∧
    State.reset.tvalid = false := by decide
theorem witness_ResetAbandonsACommand : (⟨true, true, 0x0100000000⟩ : PortPins).rst = true := rfl
theorem witness_OnlyResetClearsErrAndTvalid_command :
    ∃ t, acceptCommand 0x0300000000 ((built 0).setErr 2) = .next t ∧ ((built 0).setErr 2).tvalid = true ∧
      ((built 0).setErr 2).err ≠ 0#4 := ⟨_, rfl, rfl, by decide⟩
theorem witness_OnlyResetClearsErrAndTvalid_reset :
    PortInput.commandCutByReset 0 = .reset ∨ ∃ w, PortInput.commandCutByReset 0 = .commandCutByReset w := .inr ⟨0, rfl⟩
theorem witness_StepKeepsInvariant : ∃ t, State.reset.Inv ∧ step State.reset = .next t := ⟨_, reset_inv, rfl⟩
theorem witness_NoStateIsStuck : (built 0).Inv := (built_built 0).1
theorem witness_StepRunsTheDecodedCommand : decode 0x1200000031 = .ok (.upd 0x31) ∧
    decodeTableWord 40 0x1200000031 = some (.upd 0x31) ∧ State.reset.inputs = [] := by decide
theorem witness_StepsRunTheInputsInOrder : ∃ rs t,
    runInputs [.command 0x1000000000, .reset] (State.reset.setInputs []) = .next (rs, t) := ⟨_, _, rfl⟩
theorem witness_IllegalWordsAreRefused : legalWord 0x0300000000 = false ∧ legalWord 0x0000000001 = false ∧
    legalWord 0x1200000100 = false ∧ legalWord 0x12000000FF = true := by decide
theorem witness_OpcodeMapSelectsOneRow :
    (⟨.UPD, 0x1200000000, 0xFFFFFFFF00⟩ : OpRow) ∈ opcodeMap ∧
    (⟨.UPD, 0x1200000000, 0xFFFFFFFF00⟩ : OpRow).selects 0x12000000FF = true ∧
    decode 0x12000000FF = .ok (.upd 0xFF) := by decide
theorem witness_DecodeOfEncodeIsTheCommand : (Instr.load 0xFFFFFFFF).wellFormed = true := by decide
theorem witness_EncodeOfDecodeIsTheWord : decode 0x11FFFFFFFF = .ok (.load 0xFFFFFFFF) := by decide
/-- RefusesArgument and RefusesReservedBits have an instance at their lowest and highest reserved bit. -/
theorem witness_RefusesReserved : (0x0100000001#40).extractLsb' 32 8 = 0x01#8 ∧ (0x0100000001#40).extractLsb' 0 32 ≠ 0#32 ∧
    (0x1200000100#40).extractLsb' 32 8 = 0x12#8 ∧ (0x1200000100#40).extractLsb' 8 24 ≠ 0#24 ∧
    (0x1280000000#40).extractLsb' 8 24 ≠ 0#24 := by decide
theorem witness_BuildFillsTheTable : State.reset.tvalid = false ∧ State.reset.table.wf := ⟨rfl, Memory.wf_nil⟩
theorem witness_SecondBuildChangesNothing : (built 0).tvalid = true := rfl
theorem witness_table_reads : (built 0).tvalid = true ∧ (built 0).entryAt 0xFF#8 = some 0x2D02EF8D#32 ∧
    (built 0).entryAt (indexOf (built 0).crc 0x00#8) = some 0x00000000#32 ∧ State.reset.tvalid = false := by decide +kernel
theorem witness_LoadSetsTheRegister : (0x11FFFFFFFF#40).extractLsb' 32 8 = 0x11#8 := by decide
theorem witness_OnlyEntryZeroIsZero : 1 ≤ (0x01#8 : Byte).toNat ∧ 1 ≤ (0xFF#8 : Byte).toNat := by decide
theorem witness_TopBytesArePermutation : (entry 0x01#8).extractLsb' 24 8 = (entry 0x01#8).extractLsb' 24 8 := rfl
theorem witness_BuiltTableNeverChanges : ∃ rs t, Built (built 0) ∧
    runWords [0x0100000000, 0x0300000000] (built 0) = .next (rs, t) := ⟨_, _, built_built 0, rfl⟩
theorem witness_BuiltBlockCompletesTableReads : Built (built 0xFFFFFFFF) := built_built _
theorem witness_UnwrittenEntryStopsOutsideTheInvariant : (State.reset.setTvalid true).tvalid = true ∧
    (State.reset.setTvalid true).entryAt 0xFF#8 = none ∧
    (State.reset.setTvalid true).entryAt (indexOf 0xFFFFFFFF#32 0x00#8) = none ∧ State.reset.Inv :=
  ⟨rfl, rfl, rfl, reset_inv⟩
theorem witness_TopByteNamesTheIndex : ∃ t, Built (built 0) ∧ exec (.updi 0xFF) (built 0) = .next t ∧
    (∃ u, exec (.upd 0xFF) (built 0) = .next u) ∧ 0xFF#8 = indexOf (built 0).crc 0xFF#8 := by
  have e : (built 0).entryAt 0xFF#8 = some (entry 0xFF#8) := Memory.read_builtTable _
  have h (k : Word → State) : withEntry (built 0) 0xFF#8 k = .next (k (entry 0xFF#8)) := withEntry_some rfl e k
  exact ⟨_, built_built 0, h _, ⟨_, h _⟩, by decide⟩
theorem witness_FourUpdatesForgetTheStart : Built (built 0xFFFFFFFF) ∧
    entry 4 ^^^ (entry 3 >>> 8) ^^^ (entry 2 >>> 16) ^^^ (entry 1 >>> 24) =
      entry 4 ^^^ (entry 3 >>> 8) ^^^ (entry 2 >>> 16) ^^^ (entry 1 >>> 24) := ⟨built_built _, rfl⟩
theorem witness_UpdateIsLinearAndInvertible :
    (entry 0xCE).extractLsb' 24 8 = (updateWith entry 0xFFFFFFFF 0x31).extractLsb' 24 8 := by decide +kernel
theorem witness_RegisterCommandsAreDeterministic :
    (Instr.upd 0x31).mnemonic ∈ [Mnemonic.INIT, .LOAD, .UPD, .UPDI, .IDX, .RDCRC] ∧ (built 7).Inv ∧
    ((built 7).setErr 2).Inv ∧ (built 7).crc = ((built 7).setErr 2).crc ∧
    (built 7).tvalid = ((built 7).setErr 2).tvalid ∧
    ∀ i ∈ [Instr.upd 0x31, .rdcrc], i.mnemonic ∈ [Mnemonic.INIT, .LOAD, .UPD, .UPDI, .IDX, .RDCRC] :=
  ⟨by decide, (built_built 7).1, ⟨(built_built 7).1.1, .inr (.inr rfl), fun _ h => by cases h⟩, rfl, rfl, by decide⟩
theorem witness_StringRegisterOnTheBlock : Built (built 0) := built_built 0
theorem witness_ExactlyTwoErrors : ∃ t, acceptCommand 0x0300000000 State.reset = .next t := ⟨_, rfl⟩
theorem witness_RefusalIsPreciseAndSticky : ∃ t r, acceptCommand 0x1200000031 State.reset = .next t ∧ t.rsp = some r ∧
    rspCode r ≠ 0#4 := ⟨_, _, rfl, rfl, by decide⟩
theorem witness_LegalRunOnBuiltTableIsSafe : Built (built 0) ∧ ∀ w ∈ [0x1200000031#40], legalWord w = true :=
  ⟨built_built 0, fun w h => by rw [List.mem_singleton.mp h]; decide⟩
theorem witness_OneResponsePerCommand : ∃ rs t,
    runInputs [.command 0x0000000000, .commandCutByReset 0, .command 0x0300000000] State.reset = .next (rs, t) ∧
    rs.length = 2 := ⟨_, _, rfl, rfl⟩
theorem witness_CommandFrames : ∃ t, exec (.rdtab 0x00) State.reset = .next t ∧ t.err ≠ State.reset.err :=
  ⟨_, rfl, by decide⟩
theorem witness_PortCompletesTheAcceptedCommand : ∃ t, (⟨State.reset, none, 0⟩ : Port).accepts ⟨false, true, 0x1000000000⟩ = true ∧
    acceptCommand 0x1000000000 (State.reset.setRsp none) = .next t := ⟨_, rfl, rfl⟩
/-- The cycles up to the response: the latency is at least 1, so the list exists. -/
theorem witness_PortCompletesTheAcceptedCommand_length :
    (List.replicate (latencyBeyondOne 0 0x1000000000) (⟨false, false, 0⟩ : PortPins)).length + 1 =
      latency 0 0x1000000000 ∧
    ∀ q ∈ List.replicate (latencyBeyondOne 0 0x1000000000) (⟨false, false, 0⟩ : PortPins), q.rst = false :=
  ⟨by rw [List.length_replicate]; rfl, fun _ h => by rw [(List.mem_replicate.mp h).2]⟩
/-- A busy block that waits two cycles, and one in its last cycle. -/
theorem witness_PortCompletesTheAcceptedCommand_busy : State.reset.rsp = none ∧
    ([⟨false, true, 0⟩, ⟨false, false, 0⟩] : List PortPins).length ≤ 2 ∧
    (∀ q ∈ ([⟨false, true, 0⟩, ⟨false, false, 0⟩] : List PortPins), q.rst = false) ∧
    (⟨State.reset, some (0x0100000000, 2), 0⟩ : Port).busy = some (0x0100000000, 2) ∧
    (⟨State.reset, some (0x0100000000, 0), 0⟩ : Port).busy = some (0x0100000000, 0) ∧
    ∃ t, acceptCommand 0x0100000000 State.reset = .next t :=
  ⟨rfl, by decide, by decide, rfl, rfl, ⟨_, rfl⟩⟩
theorem witness_IdlePortKeepsTheState : (⟨State.reset, none, 0⟩ : Port).busy = none ∧
    (⟨State.reset, none, 0⟩ : Port).accepts ⟨false, false, 0⟩ = false := ⟨rfl, rfl⟩
/-- H6 on the block, its candidate 12 alone: the filter passes and the three steps recover "345". -/
theorem test_candidate_on_block : ((recoverIndices entry 0xCBF53A1C).bind fun si =>
    (candidateOnBlock si 12 (built 7)).map fun r => (r.1, r.2.crc)) = some (some [0x33, 0x34, 0x35], ~~~ 0xCBF53A1C) := by
  decide +kernel
/-- Before BUILD the host's RDTAB is refused; IDX is not. -/
theorem test_issue_refused : issue (.rdtab 0) State.reset = none ∧ (issue (.idx 0x31) State.reset).map (·.1) = some 0xCE := by
  decide
/-- A reset after a refused command: no error is left in ERR, yet the list is not one without error (log 17). -/
theorem test_reset_hides_no_error : ¬ SafeInputs [.command 0x0300000000, .reset] State.reset := by
  rintro ⟨rs, t, h, hr⟩
  cases h
  exact absurd (hr _ (List.mem_cons_self ..)) (by decide)
/-- A response that lands before a cycle with `rst = 1` is not shown in it (R160). -/
theorem test_reset_shows_no_response : (⟨(built 5).setRsp (some 0x05), none, 0⟩ : Port).rspValid ⟨true, false, 0⟩ = false ∧
    (⟨(built 5).setRsp (some 0x05), none, 0⟩ : Port).rspValid ⟨false, false, 0⟩ = true := by decide
theorem witness_HostProgramCracksOnTheBlock : State.reset.Inv := reset_inv
theorem witness_CandidateOnTheBlockIsFilterAndValidator : Built (built 7) ∧
    (recoverIndices entry 0xCBF53A1C).map (fun si => (passesFilter entry si 12, validate entry si 12)) =
      some (true, some [0x33, 0x34, 0x35]) := ⟨built_built 7, by decide +kernel⟩
theorem witness_ErrZeroAtTheEndMeansNoRefusal : State.reset.Inv ∧ State.reset.err = 0#4 := ⟨reset_inv, rfl⟩
theorem witness_CrackIsSound : crack entry 2 0x9BE3E0A3 = .solution [0x31, 0x32, 0x33, 0x34] := by decide +kernel
/-- Three workers, the last range first: H6, whose prefix 12 is in the second range. -/
theorem test_workers : crackWorkers entry [(14, 2), (8, 6), (0, 8)] 0xCBF53A1C = .solution [0x31, 0x32, 0x33, 0x34, 0x35] := by
  decide +kernel
theorem witness_WorkersFindTheSamePrefix (i : Nat) : i < 16 ↔ ∃ r ∈ [(14, 2), (8, 6), (0, 8)], r.1 ≤ i ∧ i < r.1 + r.2 := by
  simp; omega
theorem witness_HeldCommandIsAccepted : (⟨State.reset, some (0x0100000000, 2), 0⟩ : Port).busy = some (0x0100000000, 2) ∧
    State.reset.rsp = none ∧ (∃ t, acceptCommand 0x0100000000 State.reset = .next t) ∧
    (⟨false, true, 0x2000000000⟩ : PortPins).rst = false ∧ (⟨false, true, 0x2000000000⟩ : PortPins).cmdValid = true :=
  ⟨rfl, rfl, ⟨_, rfl⟩, rfl, rfl⟩
theorem witness_CrackFindsTheSmallestPrefix : 0 < 1 ∧ DigitString 3 [0x30#8, 0x35#8, 0x39#8] :=
  ⟨by decide, rfl, by decide⟩

end Sys2Proof.Tests
end

section
/-! The guarded table read, case by case, and the three commands that make it (60_exceptions.md R142; log 5). -/

namespace Sys2Proof.Machine
open Sys2Proof.Spec

/-- The guarded read of an entry without a value. -/
theorem withEntry_none {s : State} {i : Byte} (hv : s.tvalid = true) (hr : s.entryAt i = none) (k : Word → State) :
    withEntry s i k = .fault (.tableEntryUnwritten i) := by
  simp [withEntry, hv, hr]

/-- The one way in which the guarded read stops. -/
theorem withEntry_fault {s : State} {i : Byte} {k : Word → State} {f : Fault} (h : withEntry s i k = .fault f) :
    s.tvalid = true ∧ s.entryAt i = none ∧ f = .tableEntryUnwritten i := by
  cases hv : s.tvalid with
  | false => rw [withEntry_noTable hv] at h; cases h
  | true =>
    cases hr : s.entryAt i with
    | none => rw [withEntry_none hv hr] at h; cases h; exact ⟨rfl, rfl, rfl⟩
    | some v => rw [withEntry_some hv hr] at h; cases h

theorem exec_rdtab (b : Byte) (s : State) : exec (.rdtab b) s = withEntry s b s.respond := rfl

theorem exec_upd (b : Byte) (s : State) : exec (.upd b) s = withEntry s (indexOf s.crc b) s.update := rfl

theorem exec_updi (x : Byte) (s : State) : exec (.updi x) s = withEntry s x s.update := rfl

/-- The commands that read the table are those that have an index to read at. -/
theorem readsTable_eq_isSome_tableIndex (i : Instr) (s : State) : readsTable i = (tableIndex s i).isSome := by
  cases i <;> rfl

/-- Without a table every table-reading command is refused (60_exceptions.md R142). -/
theorem exec_noTable {i : Instr} {s : State} (hi : readsTable i = true) (hv : s.tvalid = false) :
    exec i s = .next (s.raise .noTable) := by
  cases i with
  | rdtab b => exact withEntry_noTable hv _ _
  | upd b => exact withEntry_noTable hv _ _
  | updi x => exact withEntry_noTable hv _ _
  | nop | build | init | load v | idx b | rdcrc | rdst => cases hi

/-- The one way in which a command stops: it reads a built table at an index without a value. -/
theorem exec_fault {i : Instr} {s : State} {f : Fault} (h : exec i s = .fault f) :
    s.tvalid = true ∧ ∃ x, tableIndex s i = some x ∧ s.entryAt x = none ∧ f = .tableEntryUnwritten x := by
  cases i with
  | rdtab b => exact (withEntry_fault h).imp_right fun hr => ⟨_, rfl, hr⟩
  | upd b => exact (withEntry_fault h).imp_right fun hr => ⟨_, rfl, hr⟩
  | updi x => exact (withEntry_fault h).imp_right fun hr => ⟨_, rfl, hr⟩
  | build =>
    simp only [exec, execBuild] at h
    split at h <;> cases h
  | nop | init | load v | idx b | rdcrc | rdst => cases h

/-- The model's refusal leaves the state that 60_exceptions.md R144 and R145 describe. -/
theorem raise_eq_refusedWith (s : State) (e : BlockError) : s.raise e = refusedWith s e.code := rfl

end Sys2Proof.Machine
end

section
/-! What a command leaves unchanged, field by field (10_state.md R10, R11, R13, R14), from the cases of `exec_next`. -/

namespace Sys2Proof.Machine
open Sys2Proof.Spec

/-- Only INIT, LOAD, UPD and UPDI write `CRC` (R10). -/
theorem exec_crc_eq {i : Instr} {s t : State} (h : exec i s = .next t)
    (hi : i.mnemonic ∉ [Mnemonic.INIT, .LOAD, .UPD, .UPDI]) : t.crc = s.crc := by
  rcases exec_next h with ⟨d, rfl, -, -⟩ | ⟨v, rfl, ⟨rfl, -⟩ | rfl⟩ | ⟨-, -, rfl⟩ | ⟨-, -, rfl⟩ | ⟨-, -, rfl⟩ |
    ⟨x, v, -, -, -, ⟨b, rfl⟩ | ⟨y, rfl⟩, rfl⟩
  -- an answer that writes nothing, BUILD, and the refusal
  case inl | inr.inr.inl | inr.inr.inr.inl | inr.inr.inr.inr.inl => rfl
  -- INIT, LOAD, UPD and UPDI
  all_goals exact absurd (by simp [Instr.mnemonic]) hi

/-- Only BUILD writes `TVALID` and the table (R11, R13). -/
theorem exec_tvalid_table_eq {i : Instr} {s t : State} (h : exec i s = .next t) (hi : i ≠ .build) :
    t.tvalid = s.tvalid ∧ t.table = s.table := by
  rcases exec_next h with ⟨d, rfl, -, -⟩ | ⟨v, rfl, -⟩ | ⟨hb, -, -⟩ | ⟨hb, -, -⟩ | ⟨-, -, rfl⟩ | ⟨x, v, -, -, -, -, rfl⟩
  -- the two cases of BUILD
  case inr.inr.inl | inr.inr.inr.inl => exact absurd hb hi
  all_goals exact ⟨rfl, rfl⟩

/-- `ERR` changes only by the first refusal (R14). -/
theorem exec_err_ne {i : Instr} {s t : State} (h : exec i s = .next t) (he : t.err ≠ s.err) :
    readsTable i = true ∧ s.tvalid = false ∧ s.err = 0#4 := by
  rcases exec_next h with ⟨d, rfl, -, -⟩ | ⟨v, rfl, -⟩ | ⟨-, -, rfl⟩ | ⟨-, -, rfl⟩ | ⟨hv, hx, rfl⟩ |
    ⟨x, v, -, -, -, -, rfl⟩
  -- the refusal
  case inr.inr.inr.inr.inl =>
    refine ⟨by rwa [readsTable_eq_isSome_tableIndex i s], hv, ?_⟩
    by_contra h0
    exact he (stickyErr_of_ne h0 _)
  all_goals exact absurd rfl he

/-- No command touches the queue of inputs (log 1). -/
theorem exec_inputs_eq {i : Instr} {s t : State} (h : exec i s = .next t) : t.inputs = s.inputs := by
  rcases exec_next h with ⟨d, rfl, -, -⟩ | ⟨v, rfl, -⟩ | ⟨-, -, rfl⟩ | ⟨-, -, rfl⟩ | ⟨-, -, rfl⟩ | ⟨x, v, -, -, -, -, rfl⟩
  all_goals rfl

/-- BUILD on a block without a table. -/
theorem exec_build_unbuilt {s : State} (hv : s.tvalid = false) :
    exec .build s = .next (((s.setTable builtTable).setTvalid true).respond 0) := by
  simp [exec, execBuild, hv]

/-- BUILD on a block with a table. -/
theorem exec_build_built {s : State} (hv : s.tvalid = true) : exec .build s = .next (s.respond 0) := by
  simp [exec, execBuild, hv]

/-- No command gives or takes a value outside the 256 entries (R11). -/
theorem exec_read_outside {i : Instr} {s t : State} (h : exec i s = .next t) (hw : s.table.wf) {a : Nat}
    (ha : ENTRIES ≤ a) : t.table.read a = s.table.read a := by
  by_cases hi : i = .build
  · subst hi
    cases hv : s.tvalid with
    | true => rw [exec_build_built hv] at h; cases h; rfl
    | false =>
      rw [exec_build_unbuilt hv] at h
      cases h
      exact (Memory.read_outside Memory.wf_builtTable ha).trans (Memory.read_outside hw ha).symm
  · rw [(exec_tvalid_table_eq h hi).2]

end Sys2Proof.Machine
end

section
/-! The invariant: how each way of ending a command keeps it, then the command, the accepted word, the input, the step. -/

namespace Sys2Proof.Machine
open Sys2Proof.Spec

/-- An answer with code `OK` needs the table and `ERR` in order and gives the whole invariant. -/
theorem respond_inv {s : State} (ht : s.TableOk) (he : s.ErrOk) (d : Word) : (s.respond d).Inv where
  tableOk := ht
  errOk := he
  rspOk := fun r hr => by
    cases hr
    exact .inl (rspCode_rspWord _ _)

/-- The codes of the two errors (30_encoding.md R57). -/
theorem code_eq_one_or_two (e : BlockError) : e.code = 1#4 ∨ e.code = 2#4 := by
  cases e with
  | illegal => exact .inl rfl
  | noTable => exact .inr rfl

/-- A refusal keeps `ERR` at 0, 1 or 2 (60_exceptions.md R145). -/
theorem raise_errOk {s : State} (he : s.ErrOk) (e : BlockError) : (s.raise e).ErrOk := by
  by_cases h0 : s.err = 0#4
  · have hc : (s.raise e).err = e.code := if_pos h0
    exact .inr (by rw [hc]; exact code_eq_one_or_two e)
  · have hc : (s.raise e).err = s.err := stickyErr_of_ne h0 _
    rwa [State.ErrOk, hc]

/-- A refusal keeps the invariant: its response has data 0 and `ERR` has noted it (60_exceptions.md R144, R145). -/
theorem raise_inv {s : State} (h : s.Inv) (e : BlockError) : (s.raise e).Inv where
  tableOk := h.tableOk
  errOk := raise_errOk h.errOk e
  rspOk := fun r hr => by
    cases hr
    rw [rspCode_rspWord, rspData_rspWord]
    exact .inr ⟨code_eq_one_or_two e, rfl, stickyErr_ne_zero _ _⟩

/-- The table that BUILD leaves is canonical and holds `ENTRY` at every index (10_state.md R12). -/
theorem builtTable_tableOk (s : State) : ((s.setTable builtTable).setTvalid true).TableOk :=
  ⟨Memory.wf_builtTable, fun _ => Memory.read_builtTable⟩

/-- A reset gives the invariant, whatever stood before it. -/
theorem applyReset_inv (s : State) : s.applyReset.Inv where
  tableOk := ⟨Memory.wf_nil, fun h => by cases h⟩
  errOk := .inl rfl
  rspOk := fun _ h => by cases h

/-- An idle block keeps the invariant. -/
theorem idle_inv {s : State} (h : s.Inv) : s.idle.Inv where
  tableOk := h.tableOk
  errOk := h.errOk
  rspOk := fun _ h => by cases h

/-- The invariant does not look at the queue of inputs. -/
theorem setInputs_inv {s : State} (h : s.Inv) (l : List PortInput) : (s.setInputs l).Inv :=
  ⟨h.tableOk, h.errOk, h.rspOk⟩

/-- Every command keeps the invariant. -/
theorem exec_keeps_inv {i : Instr} {s t : State} (h : s.Inv) (he : exec i s = .next t) : t.Inv := by
  rcases exec_next he with ⟨d, rfl, -, -⟩ | ⟨v, rfl, -⟩ | ⟨-, -, rfl⟩ | ⟨-, -, rfl⟩ | ⟨-, -, rfl⟩ |
    ⟨x, v, -, -, -, -, rfl⟩
  · exact respond_inv h.tableOk h.errOk d
  · exact respond_inv (s := s.setCrc v) h.tableOk h.errOk v
  · exact respond_inv h.tableOk h.errOk 0
  · exact respond_inv (builtTable_tableOk s) h.errOk 0
  · exact raise_inv h .noTable
  · exact respond_inv (s := s.setCrc (accumulate s.crc v)) h.tableOk h.errOk _

/-- Every accepted word keeps the invariant. -/
theorem acceptCommand_keeps_inv {w : CmdWord} {s t : State} (h : s.Inv) (ha : acceptCommand w s = .next t) : t.Inv := by
  rcases acceptCommand_next ha with ⟨-, rfl⟩ | ⟨i, -, he⟩
  · exact raise_inv h .illegal
  · exact exec_keeps_inv h he

/-- Every input keeps the invariant. -/
theorem takeInput_keeps_inv {p : PortInput} {s t : State} (h : s.Inv) (hp : takeInput p s = .next t) : t.Inv := by
  cases p with
  | command w => exact acceptCommand_keeps_inv h hp
  | reset => cases hp; exact applyReset_inv s
  | commandCutByReset w => cases hp; exact applyReset_inv s

/-- Every step keeps the invariant. -/
theorem step_keeps_inv {s t : State} (h : s.Inv) (hs : step s = .next t) : t.Inv := by
  rcases step_next hs with ⟨-, rfl⟩ | ⟨p, rest, -, hp⟩
  · exact idle_inv h
  · exact takeInput_keeps_inv (setInputs_inv h rest) hp

/-- The state after reset has the invariant. -/
theorem reset_satisfies_inv : State.reset.Inv := applyReset_inv State.reset

/-- Under the invariant no command stops. -/
theorem exec_ne_fault {s : State} (h : s.Inv) (i : Instr) (f : Fault) : exec i s ≠ .fault f := by
  intro hf
  obtain ⟨hv, x, -, hx, -⟩ := exec_fault hf
  have hr : s.entryAt x = some (entry x) := h.tableOk.2 hv x
  rw [hx] at hr
  cases hr

/-- Under the invariant every command answers a next state (60_exceptions.md R154). -/
theorem exec_answers {s : State} (h : s.Inv) (i : Instr) : ∃ t, exec i s = .next t := by
  cases he : exec i s with
  | next t => exact ⟨t, rfl⟩
  | fault f => exact absurd he (exec_ne_fault h i f)
  | refused r => exact absurd he (exec_ne_refused i s r)

/-- Under the invariant every input answers a next state. -/
theorem takeInput_answers {s : State} (h : s.Inv) (p : PortInput) : ∃ t, takeInput p s = .next t := by
  cases p with
  | command w =>
    cases hd : decode w with
    | error e => exact ⟨_, acceptCommand_error hd s⟩
    | ok i =>
      obtain ⟨t, ht⟩ := exec_answers h i
      exact ⟨t, (acceptCommand_ok hd s).trans ht⟩
  | reset => exact ⟨_, rfl⟩
  | commandCutByReset w => exact ⟨_, rfl⟩

end Sys2Proof.Machine
end

section
/-! Runs on a built block: decoding what was encoded, one command at a time, and a string of UPDs. -/

namespace Sys2Proof.Machine
open Sys2Proof.Laws Sys2Proof.Spec

/-- Every entry of a built block has the value that 10_state.md R12 gives. -/
theorem entryAt_of_built {s : State} (h : Built s) (i : Byte) : s.entryAt i = some (entry i) := h.1.tableOk.2 h.2 i

/-- The guarded read of a built block. -/
theorem withEntry_built {s : State} (h : Built s) (i : Byte) (k : Word → State) :
    withEntry s i k = .next (k (entry i)) := withEntry_some h.2 (entryAt_of_built h i) k

/-- UPD on a built block (41_register_update.md R92). -/
theorem exec_upd_built {s : State} (h : Built s) (b : Byte) :
    exec (.upd b) s = .next (s.update (entry (indexOf s.crc b))) := withEntry_built h _ _

/-- A built block stays built under every command. -/
theorem exec_keeps_built {i : Instr} {s t : State} (h : Built s) (he : exec i s = .next t) : Built t := by
  refine ⟨exec_keeps_inv h.1 he, ?_⟩
  by_cases hi : i = .build
  · subst hi
    rw [exec_build_built h.2] at he
    cases he
    exact h.2
  · exact (exec_tvalid_table_eq he hi).1.trans h.2

/-- The decoder reads every command back from its word (30_encoding.md R50 to R53). -/
theorem decode_encode (i : Instr) : decode (encode i) = .ok i := by
  cases i with
  | nop | build | init | rdcrc | rdst =>
    simp [encode, decode, decodeZ, Mnemonic.opcode, opOf_encodeZ, argOf_encodeZ]
  | rdtab b | upd b | updi b | idx b =>
    simp [encode, decode, decodeB, Mnemonic.opcode, opOf_encodeB, reservedB_encodeB, byteOf_encodeB]
  | load v => simp [encode, decode, decodeW, Mnemonic.opcode, opOf_encodeW, argOf_encodeW]

/-- The encoded word of a command runs the command. -/
theorem takeInput_encode (i : Instr) (s : State) : takeInput (.command (encode i)) s = exec i s :=
  acceptCommand_ok (decode_encode i) s

/-- A run from its first input's next state and the run of the rest. -/
theorem runInputs_cons_eq {p : PortInput} {ps : List PortInput} {s s' t : State} {rs : List RspWord}
    (hp : takeInput p s = .next s') (hr : runInputs ps s' = .next (rs, t)) :
    runInputs (p :: ps) s = .next (s'.rsp.toList ++ rs, t) := by
  simp [runInputs, hp, hr]

/-- A run of commands from the first command's next state and the run of the rest. -/
theorem runCommands_cons_eq {i : Instr} {is : List Instr} {s s' t : State} {rs : List RspWord}
    (hi : exec i s = .next s') (hr : runCommands is s' = .next (rs, t)) :
    runCommands (i :: is) s = .next (s'.rsp.toList ++ rs, t) :=
  runInputs_cons_eq ((takeInput_encode i s).trans hi) hr

/-- One UPD per byte takes the register of a built block through the bytes (41_register_update.md R97). -/
theorem runCommands_upds (bytes : List Byte) {s : State} (h : Built s) :
    ∃ rs t, runCommands (bytes.map .upd) s = .next (rs, t) ∧ t.crc = registerFrom entry s.crc bytes := by
  induction bytes generalizing s with
  | nil => exact ⟨[], s, rfl, rfl⟩
  | cons b bytes ih =>
    have hb := exec_upd_built h b
    obtain ⟨rs, t, hr, hc⟩ := ih (exec_keeps_built h hb)
    exact ⟨_, t, runCommands_cons_eq hb hr, hc⟩

/-- BUILD makes a built block of every block with the invariant and keeps the register. -/
theorem exec_build_answers_built {s : State} (h : s.Inv) :
    ∃ t, exec .build s = .next t ∧ Built t ∧ t.crc = s.crc := by
  cases hv : s.tvalid with
  | true =>
    have hb := exec_build_built hv
    exact ⟨_, hb, exec_keeps_built ⟨h, hv⟩ hb, rfl⟩
  | false =>
    have hb := exec_build_unbuilt hv
    exact ⟨_, hb, ⟨exec_keeps_inv h hb, rfl⟩, rfl⟩

end Sys2Proof.Machine
end

section
/-! Noninterference of the unspecified entries (10_state.md R21): two blocks that differ in an unbuilt table only stay so,
and answer alike, whatever the host presents. -/

namespace Sys2Proof.Machine
open Sys2Proof.Spec

/-- The second state differs from the first at most in the table memory, and not even there once the table is built. -/
def SameButUnbuiltTable (s s' : State) : Prop := ∃ m, s' = s.setTable m ∧ (s.tvalid = true → m = s.table)

theorem SameButUnbuiltTable.refl (s : State) : SameButUnbuiltTable s s := ⟨s.table, rfl, fun _ => rfl⟩

/-- With an unbuilt table every command but BUILD carries the table memory along unread. -/
theorem exec_setTable_of_unbuilt {i : Instr} {s : State} (hv : s.tvalid = false) (hi : i ≠ .build) (m : Memory) :
    exec i (s.setTable m) = onNext (·.setTable m) (exec i s) := by
  cases i with
  | build => exact absurd rfl hi
  | rdtab b | upd b | updi b => rw [exec_noTable rfl hv, exec_noTable (s := s.setTable m) rfl hv]; rfl
  | nop | init | load v | idx b | rdcrc | rdst => rfl

/-- A command answers alike in two states that differ in an unbuilt table only. BUILD overwrites the difference. -/
theorem exec_sameButUnbuiltTable {i : Instr} {s s' t : State} (h : SameButUnbuiltTable s s')
    (he : exec i s = .next t) : ∃ t', exec i s' = .next t' ∧ SameButUnbuiltTable t t' := by
  obtain ⟨m, rfl, hm⟩ := h
  cases hv : s.tvalid with
  | true => exact ⟨t, by rw [hm hv]; exact he, .refl t⟩
  | false =>
    by_cases hi : i = .build
    · subst hi
      rw [exec_build_unbuilt hv] at he
      cases he
      exact ⟨_, exec_build_unbuilt (s := s.setTable m) hv, .refl _⟩
    · refine ⟨t.setTable m, by rw [exec_setTable_of_unbuilt hv hi, he]; rfl, m, rfl, fun ht => ?_⟩
      rw [(exec_tvalid_table_eq he hi).1, hv] at ht
      cases ht

/-- An input is answered alike in two states that differ in an unbuilt table only. -/
theorem takeInput_sameButUnbuiltTable {p : PortInput} {s s' t : State} (h : SameButUnbuiltTable s s')
    (hp : takeInput p s = .next t) : ∃ t', takeInput p s' = .next t' ∧ SameButUnbuiltTable t t' := by
  cases p with
  | command w =>
    rcases acceptCommand_next hp with ⟨⟨e, hd⟩, rfl⟩ | ⟨i, hd, he⟩
    · obtain ⟨m, rfl, hm⟩ := h
      exact ⟨_, acceptCommand_error hd _, m, rfl, hm⟩
    · obtain ⟨t', ht', hs⟩ := exec_sameButUnbuiltTable h he
      exact ⟨t', (acceptCommand_ok hd s').trans ht', hs⟩
  | reset | commandCutByReset w =>
    obtain ⟨m, rfl, -⟩ := h
    cases hp
    exact ⟨_, rfl, .refl _⟩

/-- A run from a block with the invariant ends, and its responses do not depend on the entries of an unbuilt table. -/
theorem runInputs_sameButUnbuiltTable (ins : List PortInput) {s s' : State} (hi : s.Inv)
    (h : SameButUnbuiltTable s s') :
    ∃ rs t t', runInputs ins s = .next (rs, t) ∧ runInputs ins s' = .next (rs, t') ∧ SameButUnbuiltTable t t' := by
  induction ins generalizing s s' with
  | nil => exact ⟨[], s, s', rfl, rfl, h⟩
  | cons p ps ih =>
    obtain ⟨u, hu⟩ := takeInput_answers hi p
    obtain ⟨u', hu', hs⟩ := takeInput_sameButUnbuiltTable h hu
    obtain ⟨rs, t, t', hr, hr', ht⟩ := ih (takeInput_keeps_inv hi hu) hs
    have hrsp : u'.rsp = u.rsp := by
      obtain ⟨m, rfl, -⟩ := hs
      rfl
    refine ⟨u.rsp.toList ++ rs, t, t', runInputs_cons_eq hu hr, ?_, ht⟩
    rw [← hrsp]
    exact runInputs_cons_eq hu' hr'

end Sys2Proof.Machine
end

section
/-! The obligations of the state family. -/

namespace Sys2Proof
open Sys2Proof.Machine Sys2Proof.Spec

/-- Settles O7: the invariant through each case of the step. -/
theorem stepKeepsInvariant : Obligations.StepKeepsInvariant :=
  fun _ _ h hs => step_keeps_inv h hs

/-- Settles O2: BUILD makes the reset block a built one, and UPD by UPD its register follows the string. -/
theorem resetRegisterStartsAString : Obligations.ResetRegisterStartsAString := by
  refine ⟨rfl, fun s => ⟨_, rfl, rfl⟩, fun bytes => ?_⟩
  obtain ⟨s, hb, hs, hcrc⟩ := exec_build_answers_built reset_satisfies_inv
  obtain ⟨rs, t, hr, hc⟩ := runCommands_upds bytes hs
  exact ⟨_, t, runCommands_cons_eq hb hr, by rw [hc, hcrc]; rfl⟩

/-- Settles O3: the run from reset simulates the run from reset with any memory as its unbuilt table. -/
theorem resetTableCannotBeObserved : Obligations.ResetTableCannotBeObserved := by
  refine ⟨fun _ => rfl, fun i s hi hv => ?_, fun m ins => ?_⟩
  · rw [exec_noTable hi hv, raise_eq_refusedWith]
    rfl
  · have hm : SameButUnbuiltTable State.reset (State.reset.setTable m) := ⟨m, rfl, fun h => by cases h⟩
    obtain ⟨rs, t, _, hr, hr', m', rfl, -⟩ := runInputs_sameButUnbuiltTable ins reset_satisfies_inv hm
    exact ⟨rs, t, _, hr, hr', rfl, rfl, rfl, rfl⟩

/-- Settles O33: on a built block the guarded read finds `ENTRY` of the index. -/
theorem builtBlockCompletesTableReads : Obligations.BuiltBlockCompletesTableReads := by
  intro s b h
  refine ⟨withEntry_built h b s.respond, exec_upd_built h b, ?_⟩
  rw [exec_updi, withEntry_built h, BitVec.xor_comm (entry b)]
  rfl

/-- Settles O44: the frame of each field. -/
theorem commandFrames : Obligations.CommandFrames := by
  intro i s t h
  refine ⟨exec_crc_eq h, fun hi => ?_, fun hw a => exec_read_outside h hw, exec_err_ne h, exec_inputs_eq h⟩
  obtain ⟨hv, ht⟩ := exec_tvalid_table_eq h hi
  exact ⟨hv, fun a => by rw [ht]⟩

/-- Settles O1, by evaluating the reset state. -/
theorem resetClearsStatus : Obligations.ResetClearsStatus := ⟨rfl, rfl, by decide⟩

/-- Settles O34: the guarded read stops at an entry without a value, and the invariant leaves no such entry. -/
theorem unwrittenEntryStopsOutsideTheInvariant : Obligations.UnwrittenEntryStopsOutsideTheInvariant := by
  refine ⟨fun s b hv hr => ⟨?_, ?_⟩, fun s b hv hr => ?_, fun s i f h => exec_ne_fault h i f⟩
  · rw [exec_rdtab, withEntry_none hv hr]
  · rw [exec_updi, withEntry_none hv hr]
  · rw [exec_upd, withEntry_none hv hr]

end Sys2Proof
end

section
/-! The queue of inputs: stepping through it is the run of its inputs in order (30_encoding.md R61, 70 R166; log 1). -/

namespace Sys2Proof.Machine

/-- An input that is answered is answered alike whatever stands in the queue behind it. -/
theorem takeInput_setInputs_next {p : PortInput} {s t : State} (h : takeInput p s = .next t) (l : List PortInput) :
    takeInput p (s.setInputs l) = .next (t.setInputs l) := by
  rw [takeInput_setInputs, h]
  rfl

/-- No input touches the queue behind it. -/
theorem takeInput_inputs_eq {p : PortInput} {s t : State} (h : takeInput p s = .next t) : t.inputs = s.inputs := by
  have hq : takeInput p s = .next (t.setInputs s.inputs) := takeInput_setInputs_next h s.inputs
  rw [h] at hq
  injection hq with ht
  rw [ht, State.setInputs_inputs]

/-- A run of given inputs leaves the queue as it is: its inputs are not taken from there. -/
theorem runInputs_inputs_eq {ins : List PortInput} {s t : State} {rs : List RspWord}
    (h : runInputs ins s = .next (rs, t)) : t.inputs = s.inputs := by
  induction ins generalizing s rs with
  | nil => cases h; rfl
  | cons p ps ih =>
    obtain ⟨s', rs', hp, hr, -⟩ := runInputs_cons h
    exact (ih hr).trans (takeInput_inputs_eq hp)

/-- A machine's run from its first step's next state. -/
theorem core_run_succ {M : Host.Core} {s s' : M.State} (h : M.step s = .next s') (k : Nat) :
    M.run (k + 1) s = M.run k s' := by
  simp [Host.Core.run, h]

/-- Stepping through a queue takes its inputs in order and drains it. -/
theorem core_run_eq_runInputs {ins : List PortInput} {s t : State} {rs : List RspWord}
    (h : runInputs ins s = .next (rs, t)) : core.run ins.length (s.setInputs ins) = .next (t.setInputs []) := by
  induction ins generalizing s rs with
  | nil => cases h; rfl
  | cons p ps ih =>
    obtain ⟨s', rs', hp, hr, -⟩ := runInputs_cons h
    have hstep : core.step (s.setInputs (p :: ps)) = .next (s'.setInputs ps) :=
      (step_input s p ps).trans (takeInput_setInputs_next hp ps)
    exact (core_run_succ hstep ps.length).trans (ih hr)

end Sys2Proof.Machine
end

section
/-! Built blocks along a run of words without a reset (20_memory.md R44). -/

namespace Sys2Proof.Machine
open Sys2Proof.Spec

/-- A built block stays built under every accepted word, legal or not. -/
theorem acceptCommand_keeps_built {w : CmdWord} {s t : State} (h : Built s) (ha : acceptCommand w s = .next t) :
    Built t := by
  rcases acceptCommand_next ha with ⟨-, rfl⟩ | ⟨i, -, he⟩
  · exact ⟨raise_inv h.1 .illegal, h.2⟩
  · exact exec_keeps_built h he

/-- A built block stays built through every run of words. -/
theorem runWords_keeps_built {ws : List CmdWord} {s t : State} {rs : List RspWord} (h : Built s)
    (hr : runWords ws s = .next (rs, t)) : Built t := by
  induction ws generalizing s rs with
  | nil => cases hr; exact h
  | cons w ws ih =>
    obtain ⟨s', rs', hw, hr', -⟩ := runInputs_cons hr
    exact ih (acceptCommand_keeps_built h hw) hr'

end Sys2Proof.Machine
end

section
/-! The obligations of the memory family. -/

namespace Sys2Proof
open Sys2Proof.Machine Sys2Proof.Spec

/-- Settles O10, by induction on the inputs: the queue's front is the input the run takes next. -/
theorem stepsRunTheInputsInOrder : Obligations.StepsRunTheInputsInOrder := by
  intro ins s t rs h
  have ht : t.inputs = [] := runInputs_inputs_eq h
  have hdrained : t.setInputs [] = t := by rw [← ht]; rfl
  exact ⟨(core_run_eq_runInputs h).trans (by rw [hdrained]), ht⟩

/-- Settles O26: a run keeps the block built, and a built block reads `ENTRY` everywhere. -/
theorem builtTableNeverChanges : Obligations.BuiltTableNeverChanges := by
  intro ws s t rs h hr
  have ht : Built t := runWords_keeps_built h hr
  exact ⟨ht.2, fun i => ⟨entryAt_of_built ht i, (builtBlockCompletesTableReads t i ht).1⟩⟩

end Sys2Proof
end

section
/-! The command word from both sides (30_encoding.md R50, R51): a word is the encoding of its fields, and the decoder and
the opcode map both pick it by its opcode and its reserved bits. -/

namespace Sys2Proof.Laws
open Sys2Proof.Machine

/-- Every bit that the format reserves is zero (R51). -/
def ReservedClear (w : CmdWord) : Format → Prop
  | .Z => argOf w = 0#32
  | .B => reservedB w = 0#24
  | .W => True

/-- A word of format W is its opcode over its operand. -/
theorem encodeW_eq {w : CmdWord} {op : Byte} (hop : opOf w = op) : encodeW op (argOf w) = w := by
  rw [← hop, encodeW_split]

/-- A word without an argument is its opcode. -/
theorem encodeZ_eq {w : CmdWord} {op : Byte} (hop : opOf w = op) (hr : argOf w = 0#32) : encodeZ op = w :=
  (congrArg (encodeW op) hr.symm).trans (encodeW_eq hop)

/-- A word with a byte argument is its opcode over that byte. -/
theorem encodeB_eq {w : CmdWord} {op : Byte} (hop : opOf w = op) (hr : reservedB w = 0#24) :
    encodeB op (byteOf w) = w :=
  (congrArg (encodeW op) (argOf_of_reservedB w hr).symm).trans (encodeW_eq hop)

/-- What the format Z decoder accepts. -/
theorem decodeZ_ok {w : CmdWord} {i j : Instr} (h : decodeZ w j = .ok i) : argOf w = 0#32 ∧ j = i := by
  unfold decodeZ at h
  split at h
  · exact ⟨‹_›, by cases h; rfl⟩
  · cases h

/-- What the format B decoder accepts. -/
theorem decodeB_ok {w : CmdWord} {f : Byte → Instr} {i : Instr} (h : decodeB w f = .ok i) :
    reservedB w = 0#24 ∧ f (byteOf w) = i := by
  unfold decodeB at h
  split at h
  · exact ⟨‹_›, by cases h; rfl⟩
  · cases h

/-- A word that decodes is the encoding of what it decodes to, opcode by opcode (R53). -/
theorem encode_of_decode {w : CmdWord} {i : Instr} (h : decode w = .ok i) : encode i = w := by
  unfold decode at h
  split at h
  -- the opcodes of format Z
  case h_1 hop | h_2 hop | h_4 hop | h_9 hop | h_10 hop =>
    obtain ⟨hr, rfl⟩ := decodeZ_ok h
    exact encodeZ_eq hop hr
  -- the opcodes of format B
  case h_3 hop | h_6 hop | h_7 hop | h_8 hop =>
    obtain ⟨hr, rfl⟩ := decodeB_ok h
    exact encodeB_eq hop hr
  -- LOAD
  case h_5 hop =>
    cases h
    exact encodeW_eq hop
  case h_11 => cases h

/-- The decoder inverts the encoder and accepts nothing else. -/
theorem decode_ok_iff {w : CmdWord} {i : Instr} : decode w = .ok i ↔ encode i = w :=
  ⟨encode_of_decode, fun h => h ▸ decode_encode i⟩

/-- Every command's word has the command's opcode and its operand in its field (R51, R53). -/
theorem encodedFields (i : Instr) : EncodedFields.Statement i := by
  cases i with
  | nop => exact EncodedFields.nop
  | build => exact EncodedFields.build
  | rdtab b => exact EncodedFields.rdtab b
  | init => exact EncodedFields.init
  | load v => exact EncodedFields.load v
  | upd b => exact EncodedFields.upd b
  | updi x => exact EncodedFields.updi x
  | idx b => exact EncodedFields.idx b
  | rdcrc => exact EncodedFields.rdcrc
  | rdst => exact EncodedFields.rdst

/-- The fields of a word that decodes. -/
theorem fields_of_decode {w : CmdWord} {i : Instr} (h : decode w = .ok i) :
    opOf w = i.mnemonic.opcode ∧ EncodedFields.argumentIs w i.mnemonic.format i.operand := by
  rw [← encode_of_decode h]
  exact (encodedFields i).2

theorem reservedClear_of_argumentIs {w : CmdWord} {f : Format} {operand : Option Nat}
    (h : EncodedFields.argumentIs w f operand) : ReservedClear w f := by
  cases f with
  | Z => exact h.1
  | B => exact h.1
  | W => trivial

/-- A word with the opcode of a mnemonic and no reserved bit set encodes a command of that mnemonic. -/
theorem exists_encode_eq {w : CmdWord} {m : Mnemonic} (hop : opOf w = m.opcode) (hr : ReservedClear w m.format) :
    ∃ i, encode i = w ∧ i.mnemonic = m := by
  cases m with
  | NOP => exact ⟨.nop, encodeZ_eq hop hr, rfl⟩
  | BUILD => exact ⟨.build, encodeZ_eq hop hr, rfl⟩
  | RDTAB => exact ⟨.rdtab (byteOf w), encodeB_eq hop hr, rfl⟩
  | INIT => exact ⟨.init, encodeZ_eq hop hr, rfl⟩
  | LOAD => exact ⟨.load (argOf w), encodeW_eq hop, rfl⟩
  | UPD => exact ⟨.upd (byteOf w), encodeB_eq hop hr, rfl⟩
  | UPDI => exact ⟨.updi (byteOf w), encodeB_eq hop hr, rfl⟩
  | IDX => exact ⟨.idx (byteOf w), encodeB_eq hop hr, rfl⟩
  | RDCRC => exact ⟨.rdcrc, encodeZ_eq hop hr, rfl⟩
  | RDST => exact ⟨.rdst, encodeZ_eq hop hr, rfl⟩

/-- The decoder accepts a word with a command of the mnemonic exactly when its opcode is the mnemonic's and no reserved bit
is set (R53, R54). -/
theorem decodes_iff {w : CmdWord} {m : Mnemonic} :
    (∃ i, decode w = .ok i ∧ i.mnemonic = m) ↔ opOf w = m.opcode ∧ ReservedClear w m.format := by
  constructor
  · rintro ⟨i, hd, rfl⟩
    exact (fields_of_decode hd).imp_right reservedClear_of_argumentIs
  · rintro ⟨hop, hr⟩
    obtain ⟨i, hi, hm⟩ := exists_encode_eq hop hr
    exact ⟨i, decode_ok_iff.mpr hi, hm⟩

end Sys2Proof.Laws
end

section
/-! The rows of the opcode map (30_encoding.md R53): what a row's mask and match compare. -/

namespace Sys2Proof.Laws
open Sys2Proof.Machine

/-- The argument bits that a format reserves (R51). -/
def reservedMask : Format → Word
  | .Z => BitVec.allOnes 32
  | .B => BitVec.allOnes 24 ++ 0#8
  | .W => 0#32

/-- A format B argument is its reserved bits over its byte (R51). -/
theorem argOf_eq_append (w : CmdWord) : argOf w = reservedB w ++ byteOf w :=
  (BitVec.extractLsb'_append_extractLsb'_eq_extractLsb' (len₁ := 8) (len₂ := 24) rfl).symm

theorem argOf_and_reservedMask_eq_zero (w : CmdWord) (f : Format) :
    argOf w &&& reservedMask f = 0#32 ↔ ReservedClear w f := by
  cases f with
  | Z => rw [reservedMask, BitVec.and_allOnes, ReservedClear]
  | B =>
    rw [reservedMask, argOf_eq_append, BitVec.and_append, BitVec.and_allOnes, BitVec.and_zero, ReservedClear]
    exact BitVec.append_left_inj (s₂ := 0#24) 0#8
  | W => simp [reservedMask, ReservedClear]

theorem encodeW_inj {op op' : Byte} {v v' : Word} : encodeW op v = encodeW op' v' ↔ op = op' ∧ v = v' := by
  constructor
  · intro h
    exact ⟨by simpa [opOf_encodeW] using congrArg opOf h, by simpa [argOf_encodeW] using congrArg argOf h⟩
  · rintro ⟨rfl, rfl⟩
    rfl

/-- Masking a word keeps the opcode and masks the argument. -/
theorem and_encodeW_allOnes (w : CmdWord) (mask : Word) :
    w &&& encodeW (BitVec.allOnes 8) mask = encodeW (opOf w) (argOf w &&& mask) := by
  conv_lhs => rw [← encodeW_split w]
  exact BitVec.and_append.trans (by rw [BitVec.and_allOnes]; rfl)

/-- A row's mask covers the opcode and the reserved bits of its format; its match is its opcode. -/
theorem row_fields : ∀ r ∈ opcodeMap, r.mask = encodeW (BitVec.allOnes 8) (reservedMask r.mnemonic.format) ∧
    r.matchWord = encodeZ r.mnemonic.opcode := by decide

/-- A row selects the words with its opcode and no reserved bit set. -/
theorem selects_iff {r : OpRow} (hr : r ∈ opcodeMap) (w : CmdWord) :
    r.selects w = true ↔ opOf w = r.mnemonic.opcode ∧ ReservedClear w r.mnemonic.format := by
  obtain ⟨hmask, hmatch⟩ := row_fields r hr
  rw [OpRow.selects, beq_iff_eq, hmask, hmatch, and_encodeW_allOnes, encodeZ, encodeW_inj]
  exact and_congr_right fun _ => argOf_and_reservedMask_eq_zero w _

/-- Every mnemonic has a row. -/
theorem exists_row (m : Mnemonic) : ∃ r ∈ opcodeMap, r.mnemonic = m := by
  cases m <;> decide

/-- No two rows have the same opcode. -/
theorem row_eq_of_opcode_eq :
    ∀ r ∈ opcodeMap, ∀ r' ∈ opcodeMap, r.mnemonic.opcode = r'.mnemonic.opcode → r = r' := by decide

/-- No two mnemonics have the same opcode. -/
theorem opcode_injective {m m' : Mnemonic} (h : m.opcode = m'.opcode) : m = m' := by
  obtain ⟨r, hr, rfl⟩ := exists_row m
  obtain ⟨r', hr', rfl⟩ := exists_row m'
  rw [row_eq_of_opcode_eq r hr r' hr' h]

/-- The legal words, by opcode and reserved bits (R54). -/
theorem legalWord_iff {w : CmdWord} :
    legalWord w = true ↔ ∃ m : Mnemonic, opOf w = m.opcode ∧ ReservedClear w m.format := by
  rw [legalWord, List.any_eq_true]
  constructor
  · rintro ⟨r, hr, hs⟩
    exact ⟨r.mnemonic, (selects_iff hr w).mp hs⟩
  · rintro ⟨m, hm⟩
    obtain ⟨r, hr, rfl⟩ := exists_row m
    exact ⟨r, hr, (selects_iff hr w).mpr hm⟩

/-- The legal words are the ones that decode (R54). -/
theorem legalWord_iff_decodes {w : CmdWord} : legalWord w = true ↔ ∃ i, decode w = .ok i := by
  rw [legalWord_iff]
  constructor
  · rintro ⟨m, hm⟩
    obtain ⟨i, hi, -⟩ := decodes_iff.mpr hm
    exact ⟨i, hi⟩
  · rintro ⟨i, hi⟩
    exact ⟨i.mnemonic, decodes_iff.mp ⟨i, hi, rfl⟩⟩

/-- The two causes for which a word is illegal (R54). -/
theorem legalWord_eq_false_iff {w : CmdWord} : legalWord w = false ↔
    (∀ m : Mnemonic, opOf w ≠ m.opcode) ∨ ∃ m : Mnemonic, opOf w = m.opcode ∧ ¬ ReservedClear w m.format := by
  rw [← Bool.not_eq_true, legalWord_iff]
  constructor
  · intro h
    by_cases hm : ∃ m : Mnemonic, opOf w = m.opcode
    · obtain ⟨m, hop⟩ := hm
      exact .inr ⟨m, hop, fun hr => h ⟨m, hop, hr⟩⟩
    · exact .inl (not_exists.mp hm)
  · rintro (h | ⟨m, hop, hn⟩) ⟨m', hop', hr⟩
    · exact h m' hop'
    · rw [opcode_injective (hop.symm.trans hop')] at hn
      exact hn hr

/-- An illegal word does not decode. -/
theorem decode_of_illegal {w : CmdWord} (h : legalWord w = false) : ∃ e, decode w = .error e := by
  cases hd : decode w with
  | error e => exact ⟨e, rfl⟩
  | ok i => exact absurd (legalWord_iff_decodes.mpr ⟨i, hd⟩) (by simp [h])

/-- The opcodes of the mnemonics that a test picks; R54 names three such lists. -/
theorem mem_opcodes_iff (p : Mnemonic → Bool) (op : Byte) :
    op ∈ (allMnemonics.filter p).map Mnemonic.opcode ↔ ∃ m : Mnemonic, p m = true ∧ op = m.opcode := by
  have hall (m : Mnemonic) : m ∈ allMnemonics := by cases m <;> decide
  simp only [List.mem_map, List.mem_filter, hall, true_and, eq_comm]

theorem mem_opcodes (op : Byte) :
    op ∈ [0x00#8, 0x01#8, 0x02#8, 0x10#8, 0x11#8, 0x12#8, 0x13#8, 0x14#8, 0x15#8, 0x20#8] ↔
      ∃ m : Mnemonic, op = m.opcode :=
  (mem_opcodes_iff (fun _ => true) op).trans (by simp)

theorem mem_opcodesZ (op : Byte) :
    op ∈ [0x00#8, 0x01#8, 0x10#8, 0x15#8, 0x20#8] ↔ ∃ m : Mnemonic, m.format = .Z ∧ op = m.opcode :=
  (mem_opcodes_iff (fun m => decide (m.format = .Z)) op).trans (by simp)

theorem mem_opcodesB (op : Byte) :
    op ∈ [0x02#8, 0x12#8, 0x13#8, 0x14#8] ↔ ∃ m : Mnemonic, m.format = .B ∧ op = m.opcode :=
  (mem_opcodes_iff (fun m => decide (m.format = .B)) op).trans (by simp)

/-- A set reserved bit means a nonzero argument in format Z and a bit of `cmd[31:8]` in format B; format W reserves none. -/
theorem not_reservedClear_iff {w : CmdWord} {f : Format} :
    ¬ ReservedClear w f ↔ (f = .Z ∧ argOf w ≠ 0#32) ∨ (f = .B ∧ reservedB w ≠ 0#24) := by
  cases f <;> simp [ReservedClear]

/-- A table word that decodes fits the 40 bits of a command word. -/
theorem decode_of_decodeTableWord {nbits w : Nat} {i : Instr} (h : decodeTableWord nbits w = some i) :
    decode (tableWord nbits w) = .ok i := by
  unfold decodeTableWord at h
  split at h
  · cases hd : decode (tableWord nbits w) with
    | error e => rw [hd] at h; cases h
    | ok j => rw [hd] at h; cases h; rfl
  · cases h

end Sys2Proof.Laws
end

section
/-! Every accepted command gives one response (30_encoding.md R56). -/

namespace Sys2Proof.Machine

/-- The input is an accepted command that no reset cuts. -/
def PortInput.isCommand : PortInput → Bool
  | .command _ => true
  | _ => false

/-- A command that answers leaves a response on the port. -/
theorem exec_responds {i : Instr} {s t : State} (h : exec i s = .next t) : ∃ r, t.rsp = some r := by
  rcases exec_next h with ⟨d, rfl, -, -⟩ | ⟨v, rfl, -⟩ | ⟨-, -, rfl⟩ | ⟨-, -, rfl⟩ | ⟨-, -, rfl⟩ | ⟨x, v, -, -, -, -, rfl⟩
  all_goals exact ⟨_, rfl⟩

/-- An accepted word that answers leaves a response on the port, refused or not. -/
theorem acceptCommand_responds {w : CmdWord} {s t : State} (h : acceptCommand w s = .next t) : ∃ r, t.rsp = some r := by
  rcases acceptCommand_next h with ⟨-, rfl⟩ | ⟨i, -, he⟩
  · exact ⟨_, rfl⟩
  · exact exec_responds he

/-- An input leaves one response if it is a command that no reset cuts, and none otherwise (70 R160, R161). -/
theorem takeInput_rsp_length {p : PortInput} {s t : State} (h : takeInput p s = .next t) :
    t.rsp.toList.length = if p.isCommand then 1 else 0 := by
  cases p with
  | command w =>
    obtain ⟨r, hr⟩ := acceptCommand_responds h
    simp [hr, PortInput.isCommand]
  | reset | commandCutByReset w => cases h; rfl

/-- A run has one response for each command in it that no reset cuts. -/
theorem runInputs_length {ins : List PortInput} {s t : State} {rs : List RspWord}
    (h : runInputs ins s = .next (rs, t)) : rs.length = ins.countP PortInput.isCommand := by
  induction ins generalizing s rs with
  | nil => cases h; rfl
  | cons p ps ih =>
    obtain ⟨s', rs', hp, hr, rfl⟩ := runInputs_cons h
    rw [List.length_append, takeInput_rsp_length hp, ih hr, List.countP_cons, Nat.add_comm]

end Sys2Proof.Machine
end

section
/-! The assembler on the lines it writes (30_encoding.md R59; log 12). -/

namespace Sys2Proof.Machine
open Sys2Proof.Laws

/-- A digit reads back as its value. -/
theorem hexValue_hexChar (n : Nat) : hexValue (hexChar (n % 16)) = some (n % 16) := by
  have hall : ∀ d < 16, hexValue (hexChar d) = some d := by decide
  exact hall _ (Nat.mod_lt n (Nat.succ_pos 15))

theorem length_hexText (k n : Nat) : (hexText k n).length = k := by
  induction k generalizing n with
  | zero => rfl
  | succ k ih => simp [hexText, ih]

theorem isHex_of_mem_hexText {k n : Nat} {c : Char} (h : c ∈ hexText k n) : isHex c = true := by
  induction k generalizing n with
  | zero => cases h
  | succ k ih =>
    rcases List.mem_append.mp h with h | h
    · exact ih h
    · rw [List.mem_singleton.mp h, isHex, hexValue_hexChar, Option.isSome_some]

/-- A numeral with one digit more. -/
theorem hexNumeral_append_digit {cs : List Char} {c : Char} {acc n d : Nat} (h : hexNumeral acc cs = some n)
    (hd : hexValue c = some d) : hexNumeral acc (cs ++ [c]) = some (n * 16 + d) := by
  induction cs generalizing acc with
  | nil => cases h; simp [hexNumeral, hd]
  | cons a cs ih =>
    cases ha : hexValue a with
    | none => simp [hexNumeral, ha] at h
    | some e => simpa [hexNumeral, ha] using ih (by simpa [hexNumeral, ha] using h)

/-- The digits of a number that fits read back as the number. -/
theorem hexNumeral_hexText {k n : Nat} (h : n < 16 ^ k) : hexNumeral 0 (hexText k n) = some n := by
  induction k generalizing n with
  | zero => rw [Nat.lt_one_iff.mp h]; rfl
  | succ k ih =>
    have hq : n / 16 < 16 ^ k := Nat.div_lt_of_lt_mul (by rwa [← Nat.pow_succ'])
    rw [hexText, hexNumeral_append_digit (ih hq) (hexValue_hexChar n), Nat.div_add_mod']

/-- A full-width hexadecimal operand reads back. -/
theorem readOperand_hexText {f : Format} {n : Nat} (hf : f ≠ .Z) (h : n < 16 ^ Format.hexDigits f) :
    readOperand f ('0' :: 'x' :: hexText (Format.hexDigits f) n) = some (n, []) := by
  have htake : (hexText (Format.hexDigits f) n).takeWhile isHex = hexText (Format.hexDigits f) n :=
    List.takeWhile_eq_self_iff.mpr fun _ => isHex_of_mem_hexText
  have hdrop : (hexText (Format.hexDigits f) n).dropWhile isHex = [] :=
    List.dropWhile_eq_nil_iff.mpr fun _ => isHex_of_mem_hexText
  have hne : hexText (Format.hexDigits f) n ≠ [] := by
    rw [← List.length_pos_iff, length_hexText]
    cases f with
    | Z => exact absurd rfl hf
    | B | W => decide
  simp [readOperand, htake, hdrop, hne, length_hexText, hexNumeral_hexText h]

theorem isUpper_of_mem_mnemonicText (m : Mnemonic) : ∀ c ∈ mnemonicText m, isUpper c = true :=
  List.all_eq_true.mp (by cases m <;> rfl)

/-- A mnemonic reads back, whatever follows it that is no capital letter. -/
theorem read_mnemonicText (m : Mnemonic) {rest : List Char} (h : rest.takeWhile isUpper = []) :
    readMnemonic ((mnemonicText m ++ rest).takeWhile isUpper) = some m := by
  rw [List.takeWhile_append_of_pos (isUpper_of_mem_mnemonicText m), h, List.append_nil]
  cases m <;> decide

/-- No blank stands before a mnemonic. -/
theorem dropBlanks_mnemonicText (m : Mnemonic) (rest : List Char) :
    (mnemonicText m ++ rest).dropWhile (· == ' ') = mnemonicText m ++ rest := by
  cases m <;> rfl

/-- What follows a mnemonic. -/
theorem drop_mnemonicText (m : Mnemonic) (rest : List Char) :
    (mnemonicText m ++ rest).dropWhile isUpper = rest.dropWhile isUpper :=
  List.dropWhile_append_of_pos (isUpper_of_mem_mnemonicText m)

/-- A mnemonic without operand is assembled as its source line. -/
theorem assembleLine_mnemonicText {m : Mnemonic} (hm : m.format = .Z) :
    assembleLine (mnemonicText m ++ []) = SourceLine.toInstr ⟨m, none⟩ := by
  simp only [assembleLine, dropBlanks_mnemonicText, read_mnemonicText m (rest := []) rfl, drop_mnemonicText,
    if_pos hm]
  rfl

/-- A mnemonic and an operand after one blank are assembled as their source line. -/
theorem assembleLine_operand {m : Mnemonic} {text : List Char} {n : Nat} (hm : m.format ≠ .Z)
    (htext : text.dropWhile (· == ' ') = text) (hr : readOperand m.format text = some (n, [])) :
    assembleLine (mnemonicText m ++ ' ' :: text) = SourceLine.toInstr ⟨m, some n⟩ := by
  have hrest : (' ' :: text).dropWhile isUpper = ' ' :: text := rfl
  simp only [assembleLine, dropBlanks_mnemonicText, read_mnemonicText m (rest := ' ' :: text) rfl, drop_mnemonicText,
    hrest, if_neg hm, htext, hr]
  rfl

/-- The source line of a command denotes it. -/
theorem toInstr_source (i : Instr) : SourceLine.toInstr i.source = some i := by
  have hwf : i.source.wellFormed = true := instr_wellFormed i
  rw [SourceLine.toInstr, if_pos hwf]
  cases i with
  | nop | build | init | rdcrc | rdst => rfl
  | rdtab b | upd b | updi b | idx b | load b => simp [Instr.source, Instr.mnemonic, Instr.operand]

/-- The line written for a command is assembled as its source line. -/
theorem assembleLine_sourceText (i : Instr) : assembleLine (sourceText i) = SourceLine.toInstr i.source := by
  cases i with
  | nop | build | init | rdcrc | rdst => exact assembleLine_mnemonicText rfl
  | rdtab b | upd b | updi b | idx b | load b =>
    exact assembleLine_operand nofun rfl (readOperand_hexText nofun b.isLt)

end Sys2Proof.Machine
end

section
/-! The obligations of the encoding family. -/

namespace Sys2Proof
open Sys2Proof.Machine Sys2Proof.Spec Sys2Proof.Laws

/-- Settles O13: the decoder reads every field back from where the encoder put it. -/
theorem decodeOfEncodeIsTheCommand : Obligations.DecodeOfEncodeIsTheCommand :=
  fun i _ => decode_encode i

/-- Settles O14: the opcode and the operand that the decoder reads, over zero reserved bits, are the whole word. -/
theorem encodeOfDecodeIsTheWord : Obligations.EncodeOfDecodeIsTheWord :=
  fun _ _ h => encode_of_decode h

/-- Settles O11: the illegal words are those without a mnemonic or with a reserved bit set, and the decoder agrees. -/
theorem illegalWordsAreRefused : Obligations.IllegalWordsAreRefused := by
  refine ⟨fun w => ?_, fun w s h => ?_, fun w => legalWord_iff_decodes⟩
  · rw [mem_opcodes, mem_opcodesZ, mem_opcodesB, legalWord_eq_false_iff, not_exists]
    refine or_congr_right ⟨?_, ?_⟩
    · rintro ⟨m, hop, hn⟩
      rcases not_reservedClear_iff.mp hn with ⟨hf, ha⟩ | ⟨hf, hr⟩
      · exact .inl ⟨⟨m, hf, hop⟩, ha⟩
      · exact .inr ⟨⟨m, hf, hop⟩, hr⟩
    · rintro (⟨⟨m, hf, hop⟩, ha⟩ | ⟨⟨m, hf, hop⟩, hr⟩)
      · exact ⟨m, hop, not_reservedClear_iff.mpr (.inl ⟨hf, ha⟩)⟩
      · exact ⟨m, hop, not_reservedClear_iff.mpr (.inr ⟨hf, hr⟩)⟩
  · obtain ⟨e, he⟩ := decode_of_illegal h
    rw [acceptCommand_error he, raise_eq_refusedWith]
    rfl

/-- Settles O12: a row selects by opcode and reserved bits, and so does the decoder. -/
theorem opcodeMapSelectsOneRow : Obligations.OpcodeMapSelectsOneRow := by
  refine ⟨fun w r r' hr hr' hs hs' => ?_, fun w i hd => ⟨?_, ?_⟩, fun w r hr hs => ?_⟩
  · obtain ⟨hop, -⟩ := (selects_iff hr w).mp hs
    obtain ⟨hop', -⟩ := (selects_iff hr' w).mp hs'
    exact row_eq_of_opcode_eq r hr r' hr' (hop.symm.trans hop')
  · obtain ⟨r, hr, hm⟩ := exists_row i.mnemonic
    refine ⟨r, hr, (selects_iff hr w).mpr ?_, hm⟩
    rw [hm]
    exact decodes_iff.mp ⟨i, hd, rfl⟩
  · have harg := (fields_of_decode hd).2
    cases hf : i.mnemonic.format <;> rw [hf] at harg
    case Z | B => exact harg.2
    case W => exact harg
  · exact decodes_iff.mpr ((selects_iff hr w).mp hs)

/-- Settles O43: a command answers refused or not, a reset answers nothing; by induction on the inputs. -/
theorem oneResponsePerCommand : Obligations.OneResponsePerCommand := by
  refine ⟨fun w s t h => acceptCommand_responds h, fun ins s t rs h => ?_⟩
  rw [runInputs_length h, List.countP_eq_length_filter]
  rfl

/-- Settles O57: the mnemonic and the hexadecimal operand read back as the command's source line. -/
theorem assemblerReadsWhatItWrites : Obligations.AssemblerReadsWhatItWrites :=
  fun i => (assembleLine_sourceText i).trans (toInstr_source i)

/-- Settles O9: a step takes the front of the queue, and an accepted word that decodes runs its command. -/
theorem stepRunsTheDecodedCommand : Obligations.StepRunsTheDecodedCommand := by
  refine ⟨fun s rest w i hd => acceptCommand_ok hd _, fun s w i hd => ?_, fun s rest => rfl, fun s h => step_idle h⟩
  exact acceptCommand_ok (decode_of_decodeTableWord hd) s

/-- Settles O15, by evaluating the decoder on each word. -/
theorem specWordsDecode : Obligations.SpecWordsDecode := by
  unfold Obligations.SpecWordsDecode
  decide

end Sys2Proof
end

section
/-! The generator step on bits and numbers (40_table_generator.md R70): a shift that bit 0 marks in bit 31, so that the top
of a generated value records what was shifted out. -/

namespace Sys2Proof.Machine

/-- The logical shift by one fills bit 31 with a zero. -/
theorem shiftRight_one_eq_append (g : Word) : g >>> 1 = 0#1 ++ g.extractLsb' 1 31 :=
  BitVec.ushiftRight_eq_extractLsb'_of_lt (n := 1) (by decide)

/-- The step on a value with bit 0 clear. -/
theorem gstep_of_bit_clear {g : Word} (h : g.getLsbD 0 = false) : gstep g = g >>> 1 :=
  if_neg (Bool.eq_false_iff.mp h)

/-- The step on a value with bit 0 set. -/
theorem gstep_of_bit_set {g : Word} (h : g.getLsbD 0 = true) : gstep g = (g >>> 1) ^^^ POLY :=
  if_pos h

/-- Bit 31 after a step is bit 0 before it: the shift leaves bit 31 clear, and it is set in the polynomial. -/
theorem msb_gstep (g : Word) : (gstep g).msb = g.getLsbD 0 := by
  have hpoly : POLY.msb = true := by decide
  cases h : g.getLsbD 0 with
  | false => simp [gstep_of_bit_clear h]
  | true => simp [gstep_of_bit_set h, hpoly]

/-- A step to a value without bit 31 was a plain halving. -/
theorem toNat_eq_of_gstep_lt {g : Word} (h : (gstep g).toNat < 2 ^ 31) : g.toNat = (gstep g).toNat * 2 := by
  have hbit : g.getLsbD 0 = false := by
    rw [← msb_gstep, BitVec.msb_eq_decide]
    exact decide_eq_false (Nat.not_le.mpr h)
  have heven : g.toNat % 2 = 0 := by simpa [BitVec.getLsbD, Nat.testBit_zero] using hbit
  rw [gstep_of_bit_clear hbit, BitVec.toNat_ushiftRight, Nat.shiftRight_eq_div_pow]
  omega

/-- The last of several steps, split off. -/
theorem gsteps_succ (n : Nat) (g : Word) : gsteps (n + 1) g = gstep (gsteps n g) := by
  induction n generalizing g with
  | zero => rfl
  | succ n ih => exact ih (gstep g)

/-- Steps to a value whose top bits are clear were plain halvings, from the last step back to the first. -/
theorem toNat_eq_of_gsteps_lt {n : Nat} {g : Word} (hn : n ≤ 32) (h : (gsteps n g).toNat < 2 ^ (32 - n)) :
    g.toNat = (gsteps n g).toNat * 2 ^ n := by
  induction n with
  | zero => exact (Nat.mul_one _).symm
  | succ n ih =>
    rw [gsteps_succ] at h ⊢
    have hlast : (gsteps n g).toNat = (gstep (gsteps n g)).toNat * 2 :=
      toNat_eq_of_gstep_lt (h.trans_le (Nat.pow_le_pow_right Nat.two_pos (by omega)))
    have hbound : (gsteps n g).toNat < 2 ^ (32 - n) := by
      rw [hlast, show 32 - n = 32 - (n + 1) + 1 by omega, Nat.pow_succ]
      omega
    rw [ih (by omega) hbound, hlast, Nat.mul_assoc, ← Nat.pow_succ']

end Sys2Proof.Machine
end

section
/-! The entries (40_table_generator.md R75 to R77): linear in the index, and named by their top bytes. -/

namespace Sys2Proof.Machine

theorem entry_zero : entry 0#8 = 0#32 := by decide

/-- `ENTRY` is linear over XOR (R76). -/
theorem entry_xor (a b : Byte) : entry (a ^^^ b) = entry a ^^^ entry b := by
  rw [entry, zext32_xor, gsteps_xor]
  rfl

/-- Only entry 0 has top byte 0: its eight steps were halvings, which shift every bit of the index out. -/
theorem eq_zero_of_topByte_entry {i : Byte} (h : (entry i).extractLsb' 24 8 = 0#8) : i = 0#8 := by
  have hlt : (entry i).toNat < 2 ^ 24 := by
    have htop := congrArg BitVec.toNat h
    rw [BitVec.extractLsb'_toNat, Nat.shiftRight_eq_div_pow] at htop
    simp only [BitVec.toNat_ofNat] at htop
    omega
  have hindex : (zext32 i).toNat = (entry i).toNat * 2 ^ 8 := toNat_eq_of_gsteps_lt (by decide) hlt
  rw [zext32, BitVec.toNat_setWidth] at hindex
  apply BitVec.eq_of_toNat_eq
  simp only [BitVec.toNat_ofNat]
  omega

/-- Different entries have different top bytes (R77): the top byte of their XOR is that of another entry. -/
theorem topByte_entry_injective : Function.Injective fun i : Byte => (entry i).extractLsb' 24 8 := by
  intro i j h
  have hxor : (entry (i ^^^ j)).extractLsb' 24 8 = 0#8 := by
    rw [entry_xor, extract_xor]
    exact BitVec.xor_eq_zero_iff.mpr h
  exact BitVec.xor_eq_zero_iff.mp (eq_zero_of_topByte_entry hxor)

/-- Every byte is the top byte of an entry (R77): the bytes are finitely many. -/
theorem topByte_entry_bijective : Function.Bijective fun i : Byte => (entry i).extractLsb' 24 8 :=
  Finite.injective_iff_bijective.mp topByte_entry_injective

end Sys2Proof.Machine
end

section
/-! Command words as a statement writes them: an operand laid over an opcode's word, and words with a reserved bit set
(30_encoding.md R50, R51, R54). -/

namespace Sys2Proof.Laws
open Sys2Proof.Machine Sys2Proof.Spec

/-- An operand laid over the word of an opcode. -/
theorem encodeZ_or_setWidth (op : Byte) (v : Word) : encodeZ op ||| v.setWidth 40 = encodeW op v := by
  have hv : v.setWidth 40 = encodeW 0#8 v := BitVec.setWidth_eq_append (by decide)
  rw [hv]
  exact BitVec.or_append.trans (congrArg₂ encodeW BitVec.or_zero BitVec.zero_or)

/-- A byte operand laid over the word of an opcode. -/
theorem encodeZ_or_byte (op b : Byte) : encodeZ op ||| b.setWidth 40 = encodeB op b := by
  have hext : b.setWidth 32 = 0#24 ++ b := BitVec.setWidth_eq_append (by decide)
  have hb : b.setWidth 40 = (0#24 ++ b : Word).setWidth 40 := by
    rw [← hext, BitVec.setWidth_setWidth (by decide)]
  rw [hb, encodeZ_or_setWidth, encodeB]

/-- A word of a mnemonic with a reserved bit set is refused in every state (R54, 60_exceptions.md R141). -/
theorem acceptCommand_of_reserved {w : CmdWord} {m : Mnemonic} (hop : opOf w = m.opcode)
    (hr : ¬ ReservedClear w m.format) (s : State) : acceptCommand w s = .next (refusedWith s 1#4) :=
  illegalWordsAreRefused.2.1 w s (legalWord_eq_false_iff.mpr (.inr ⟨m, hop, hr⟩))

/-- A mnemonic of format Z refuses every nonzero argument. -/
theorem refusesArgument {m : Mnemonic} (hm : m.format = .Z) : RefusesArgument m.opcode :=
  fun _ s hop ha => acceptCommand_of_reserved hop (not_reservedClear_iff.mpr (.inl ⟨hm, ha⟩)) s

/-- A mnemonic of format B refuses every bit set in `cmd[31:8]`. -/
theorem refusesReservedBits {m : Mnemonic} (hm : m.format = .B) : RefusesReservedBits m.opcode :=
  fun _ s hop hr => acceptCommand_of_reserved hop (not_reservedClear_iff.mpr (.inr ⟨hm, hr⟩)) s

end Sys2Proof.Laws
end

section
/-! The obligations of the table generator family. -/

namespace Sys2Proof
open Sys2Proof.Machine Sys2Proof.Spec Sys2Proof.Laws

/-- Settles O19: the loop writes `ENTRY` at each of the 256 indices and nowhere else. -/
theorem buildFillsTheTable : Obligations.BuildFillsTheTable := by
  refine ⟨decode_encode .build, fun s hv => ?_, refusesArgument (m := .BUILD) rfl⟩
  refine ⟨builtTable, exec_build_unbuilt hv, Memory.read_builtTable, Memory.wf_builtTable, fun hw a ha => ?_⟩
  exact exec_read_outside (exec_build_unbuilt hv) hw ha

/-- Settles O22: RDTAB is the guarded read at its operand. -/
theorem rdtabReturnsTheEntry : Obligations.RdtabReturnsTheEntry := by
  refine ⟨fun b => ?_, fun b s hv => ?_, fun b s v hv hr => ?_, refusesReservedBits (m := .RDTAB) rfl⟩
  · exact decode_ok_iff.mpr (encodeZ_or_byte 0x02#8 b).symm
  · exact exec_noTable rfl hv
  · exact withEntry_some hv hr s.respond

/-- Settles O24: each generator step is linear, and the eight entries are evaluated. -/
theorem entryIsLinear : Obligations.EntryIsLinear :=
  ⟨entry_xor, by decide⟩

/-- Settles O25: the top bytes are injective in the index, so they are a permutation of the 256 bytes. -/
theorem topBytesArePermutation : Obligations.TopBytesArePermutation :=
  ⟨fun _ _ h => topByte_entry_injective h, topByte_entry_bijective.existsUnique⟩

/-- Settles O20: the shift, with the polynomial or zero over it as bit 0 says. -/
theorem generatorStep : Obligations.GeneratorStep := by
  intro g
  rw [← shiftRight_one_eq_append]
  cases h : g.getLsbD 0 with
  | false => simp [gstep_of_bit_clear h]
  | true => simp [gstep_of_bit_set h, POLY]

/-- Settles O21: with a table BUILD only answers. -/
theorem secondBuildChangesNothing : Obligations.SecondBuildChangesNothing :=
  fun _ hv => exec_build_built hv

/-- Settles O23: an entry that is 0 has top byte 0, which only entry 0 has. -/
theorem onlyEntryZeroIsZero : Obligations.OnlyEntryZeroIsZero := by
  refine ⟨entry_zero, fun i hi h => ?_⟩
  have h0 : i = 0#8 := eq_zero_of_topByte_entry (by rw [h]; rfl)
  subst h0
  exact absurd hi (by decide)

end Sys2Proof
end

section
/-! The update as a function of the register (41_register_update.md R99 to R102): the shift leaves the top byte to the entry
read, which shows the index and with it the old register. -/

namespace Sys2Proof.Machine
open Sys2Proof.Spec

/-- A field of a shifted value is the field that many bits higher. -/
theorem extract_shiftRight (a : Word) (k p n : Nat) : (a >>> k).extractLsb' p n = a.extractLsb' (k + p) n := by
  ext i
  simp [Nat.add_assoc]

/-- A field above bit 31 is zero. -/
theorem extract_of_ge (a : Word) {p : Nat} (hp : 32 ≤ p) (n : Nat) : a.extractLsb' p n = 0#n := by
  ext i
  simp [BitVec.getLsbD_of_ge a (p + i) (by omega)]

theorem indexOf_eq (crc : Word) (b : Byte) : indexOf crc b = crc.extractLsb' 0 8 ^^^ b := computedIndex_eq crc b

/-- The index of a zero byte is the low byte of the register (R95). -/
theorem indexOf_zero (crc : Word) : indexOf crc 0#8 = crc.extractLsb' 0 8 := by
  rw [indexOf_eq, BitVec.xor_zero]

/-- The byte that makes UPD use a given index (R94). -/
theorem indexOf_low_xor (crc : Word) (x : Byte) : indexOf crc (crc.extractLsb' 0 8 ^^^ x) = x := by
  rw [indexOf_eq, ← BitVec.xor_assoc, BitVec.xor_self, BitVec.zero_xor]

theorem indexOf_xor (r r' : Word) (c c' : Byte) : indexOf (r ^^^ r') (c ^^^ c') = indexOf r c ^^^ indexOf r' c' := by
  simp only [indexOf_eq, extract_xor]
  ac_rfl

theorem accumulate_xor (r r' t t' : Word) :
    accumulate (r ^^^ r') (t ^^^ t') = accumulate r t ^^^ accumulate r' t' := by
  simp only [accumulate, shiftRight_xor]
  ac_rfl

/-- The top byte after an update is that of the word read (R99). -/
theorem topByte_accumulate (crc t : Word) : (accumulate crc t).extractLsb' 24 8 = t.extractLsb' 24 8 := by
  rw [accumulate, extract_xor, extract_shiftRight, extract_of_ge _ le_rfl, BitVec.zero_xor]

/-- `U` is the block's update with the entry at the computed index. -/
theorem updateWith_entry (r : Word) (c : Byte) : updateWith entry r c = accumulate r (entry (indexOf r c)) := rfl

theorem advanceWith_entry (r : Word) (x : Byte) : advanceWith entry r x = accumulate r (entry x) := BitVec.xor_comm _ _

/-- `U` is linear over XOR (R102). -/
theorem updateWith_xor (r r' : Word) (c c' : Byte) :
    updateWith entry (r ^^^ r') (c ^^^ c') = updateWith entry r c ^^^ updateWith entry r' c' := by
  simp only [updateWith_entry, indexOf_xor, entry_xor, accumulate_xor]

/-- The inverse of `U` that R102 states: the entry with the new top byte gives back both parts of the old register. -/
theorem register_of_updateWith {r : Word} {c x : Byte}
    (h : (entry x).extractLsb' 24 8 = (updateWith entry r c).extractLsb' 24 8) :
    r.extractLsb' 8 24 = (updateWith entry r c ^^^ entry x).extractLsb' 0 24 ∧ r.extractLsb' 0 8 = x ^^^ c := by
  rw [updateWith_entry, topByte_accumulate] at h
  obtain rfl : x = indexOf r c := topByte_entry_injective h
  constructor
  · rw [updateWith_entry, accumulate, BitVec.xor_assoc, BitVec.xor_self, BitVec.xor_zero, extract_shiftRight]
  · rw [indexOf_eq, BitVec.xor_assoc, BitVec.xor_self, BitVec.xor_zero]

/-- For a fixed byte `U` is injective: two registers with the same result have the same inverse. -/
theorem updateWith_injective (c : Byte) : Function.Injective fun r => updateWith entry r c := by
  intro r r' h
  have hU : updateWith entry r c = updateWith entry r' c := h
  have htop : (entry (indexOf r c)).extractLsb' 24 8 = (updateWith entry r c).extractLsb' 24 8 :=
    (topByte_accumulate _ _).symm
  obtain ⟨hhigh, hlow⟩ := register_of_updateWith htop
  rw [hU] at htop hhigh
  obtain ⟨hhigh', hlow'⟩ := register_of_updateWith htop
  calc r = r.extractLsb' 8 24 ++ r.extractLsb' 0 8 := (BitVec.extractLsb'_append_extractLsb' (w := 24) (len := 8)).symm
    _ = r'.extractLsb' 8 24 ++ r'.extractLsb' 0 8 := by rw [hhigh, hlow, hhigh', hlow']
    _ = r' := BitVec.extractLsb'_append_extractLsb' (w := 24) (len := 8)

/-- What four updates leave of the four entries they read (R100). -/
def fourEntries (x0 x1 x2 x3 : Byte) : Word :=
  entry x3 ^^^ (entry x2 >>> 8) ^^^ (entry x1 >>> 16) ^^^ (entry x0 >>> 24)

/-- Four updates shift the start value out (R100). -/
theorem foldl_advanceWith_four (r : Word) (x0 x1 x2 x3 : Byte) :
    [x0, x1, x2, x3].foldl (advanceWith entry) r = fourEntries x0 x1 x2 x3 := by
  simp [advanceWith, fourEntries, shiftRight_xor, ← BitVec.shiftRight_add, BitVec.xor_assoc,
    BitVec.ushiftRight_eq_zero (x := r) (n := 32) le_rfl]

/-- The top bytes of the four entries, each peeled off the value after the entries above it are removed (R100, R121). -/
theorem fourEntries_peel (x0 x1 x2 x3 : Byte) :
    (fourEntries x0 x1 x2 x3).extractLsb' 24 8 = (entry x3).extractLsb' 24 8 ∧
    (fourEntries x0 x1 x2 x3 ^^^ entry x3).extractLsb' 16 8 = (entry x2).extractLsb' 24 8 ∧
    (fourEntries x0 x1 x2 x3 ^^^ entry x3 ^^^ (entry x2 >>> 8)).extractLsb' 8 8 = (entry x1).extractLsb' 24 8 ∧
    (fourEntries x0 x1 x2 x3 ^^^ entry x3 ^^^ (entry x2 >>> 8) ^^^ (entry x1 >>> 16)).extractLsb' 0 8 =
      (entry x0).extractLsb' 24 8 := by
  have hpeel (a b : Word) : a ^^^ b ^^^ a = b := by
    rw [BitVec.xor_comm a b, BitVec.xor_assoc, BitVec.xor_self, BitVec.xor_zero]
  have h3 : fourEntries x0 x1 x2 x3 ^^^ entry x3 =
      (entry x2 >>> 8) ^^^ ((entry x1 >>> 16) ^^^ (entry x0 >>> 24)) := by
    rw [← hpeel (entry x3) ((entry x2 >>> 8) ^^^ ((entry x1 >>> 16) ^^^ (entry x0 >>> 24)))]
    simp only [fourEntries, BitVec.xor_assoc]
  rw [h3, hpeel, hpeel]
  refine ⟨?_, ?_, ?_, ?_⟩
  · simp [fourEntries, extract_xor, extract_shiftRight, extract_of_ge]
  · simp [extract_xor, extract_shiftRight, extract_of_ge]
  · simp [extract_xor, extract_shiftRight, extract_of_ge]
  · exact extract_shiftRight ..

/-- Four updates fix the four indices: the peeled top bytes name them (R100). -/
theorem fourEntries_inj {x0 x1 x2 x3 y0 y1 y2 y3 : Byte} (h : fourEntries x0 x1 x2 x3 = fourEntries y0 y1 y2 y3) :
    x0 = y0 ∧ x1 = y1 ∧ x2 = y2 ∧ x3 = y3 := by
  obtain ⟨hx3, hx2, hx1, hx0⟩ := fourEntries_peel x0 x1 x2 x3
  obtain ⟨hy3, hy2, hy1, hy0⟩ := fourEntries_peel y0 y1 y2 y3
  rw [h] at hx0 hx1 hx2 hx3
  obtain rfl : x3 = y3 := topByte_entry_injective (hx3.symm.trans hy3)
  obtain rfl : x2 = y2 := topByte_entry_injective (hx2.symm.trans hy2)
  obtain rfl : x1 = y1 := topByte_entry_injective (hx1.symm.trans hy1)
  obtain rfl : x0 = y0 := topByte_entry_injective (hx0.symm.trans hy0)
  exact ⟨rfl, rfl, rfl, rfl⟩

end Sys2Proof.Machine
end

section
/-! Runs of updates on a built block: every register command leaves a register that it also answers, and a run of updates
answers the successive registers (41_register_update.md R92, R94, R97). -/

namespace Sys2Proof.Machine
open Sys2Proof.Spec

/-- What INIT, LOAD and a completed update leave: the register, which is also the response. -/
def State.showing (s : State) (r : Word) : State := (s.setCrc r).respond r

/-- A built block stays built whatever register it is given. -/
theorem showing_built {s : State} (h : Built s) (r : Word) : Built (s.showing r) :=
  ⟨respond_inv (s := s.setCrc r) h.1.tableOk h.1.errOk r, h.2⟩

theorem exec_init (s : State) : exec .init s = .next (s.showing INITV) := rfl

theorem exec_load (v : Word) (s : State) : exec (.load v) s = .next (s.showing v) := rfl

/-- IDX answers the computed index below 24 zero bits (R95). -/
theorem exec_idx (b : Byte) (s : State) : exec (.idx b) s = .next (s.respond (0#24 ++ indexOf s.crc b)) := by
  rw [show 0#24 ++ indexOf s.crc b = zext32 (indexOf s.crc b) from (BitVec.setWidth_eq_append (by decide)).symm]
  rfl

theorem exec_rdcrc (s : State) : exec .rdcrc s = .next (s.respond s.crc) := rfl

/-- UPD on a built block is the update `U` of the register. -/
theorem exec_upd_showing {s : State} (h : Built s) (b : Byte) :
    exec (.upd b) s = .next (s.showing (updateWith entry s.crc b)) := exec_upd_built h b

/-- UPDI on a built block is the update with the index given. -/
theorem exec_updi_showing {s : State} (h : Built s) (x : Byte) :
    exec (.updi x) s = .next (s.showing (advanceWith entry s.crc x)) := by
  rw [exec_updi, withEntry_built h, advanceWith_entry]
  rfl

/-- A command that leaves a register, then commands that each update it by `g`: the responses are the registers one after
another. -/
theorem runCommands_updates {f : Byte → Instr} {g : Word → Byte → Word}
    (hf : ∀ {s : State}, Built s → ∀ b, exec (f b) s = .next (s.showing (g s.crc b)))
    {s : State} (h : Built s) {i : Instr} {r : Word} (hi : exec i s = .next (s.showing r)) (bytes : List Byte) :
    runCommands (i :: bytes.map f) s =
      .next ((bytes.scanl g r).map (rspWord okCode), s.showing (bytes.foldl g r)) := by
  induction bytes generalizing s i r with
  | nil => exact runCommands_cons_eq hi rfl
  | cons b bytes ih =>
    have hs := showing_built h r
    rw [List.scanl_cons]
    exact runCommands_cons_eq hi (ih hs (hf hs b))

/-- CRCSTR leaves and answers the raw register of the string (R97). -/
theorem runCommands_crcstr {s : State} (h : Built s) (bytes : List Byte) :
    runCommands (Pseudo.crcstr bytes).expand s =
      .next ((bytes.scanl (updateWith entry) INITV).map (rspWord okCode), s.showing (rawRegister entry bytes)) :=
  runCommands_updates exec_upd_showing h (exec_init s) bytes

/-- A run of inputs, then the run of more inputs. -/
theorem runInputs_append_eq {ps qs : List PortInput} {s t u : State} {rs rs' : List RspWord}
    (hp : runInputs ps s = .next (rs, t)) (hq : runInputs qs t = .next (rs', u)) :
    runInputs (ps ++ qs) s = .next (rs ++ rs', u) := by
  induction ps generalizing s rs with
  | nil => cases hp; exact hq
  | cons p ps ih =>
    obtain ⟨s', rs₁, hs', hrs₁, rfl⟩ := runInputs_cons hp
    rw [List.append_assoc]
    exact runInputs_cons_eq hs' (ih hrs₁)

/-- A run of commands, then one command more. -/
theorem runCommands_concat_eq {is : List Instr} {j : Instr} {s t u : State} {rs : List RspWord}
    (his : runCommands is s = .next (rs, t)) (hj : exec j t = .next u) :
    runCommands (is ++ [j]) s = .next (rs ++ u.rsp.toList, u) := by
  have hlast : runCommands [j] t = .next (u.rsp.toList ++ [], u) := runCommands_cons_eq hj rfl
  rw [List.append_nil] at hlast
  rw [runCommands, runWords, List.map_append, List.map_append]
  exact runInputs_append_eq his hlast

/-- LASTIDX leaves the raw register of all bytes but the last and answers the index that the last one's update would use
(R97). -/
theorem runCommands_lastidx {s : State} (h : Built s) (front : List Byte) (last : Byte) :
    ∃ rs, runCommands (Pseudo.lastidx front last).expand s =
      .next (rs, (s.showing (rawRegister entry front)).respond (0#24 ++ indexOf (rawRegister entry front) last)) :=
  ⟨_, runCommands_concat_eq (runCommands_crcstr h front) (exec_idx last _)⟩

end Sys2Proof.Machine
end

section
/-! The decimal string of an integer (41_register_update.md R97): its digits, least significant first. -/

namespace Sys2Proof.Machine

/-- The ASCII byte of the last decimal digit. -/
def lastDigit (n : Nat) : Byte := BitVec.ofNat 8 (0x30 + n % 10)

theorem lastDigit_toNat (n : Nat) : (lastDigit n).toNat = 0x30 + n % 10 := by
  rw [lastDigit, BitVec.toNat_ofNat]
  omega

/-- A one-digit number is its digit. -/
theorem digitsRev_of_lt {fuel n : Nat} (h : n < 10) : digitsRev (fuel + 1) n = [lastDigit n] := by
  rw [digitsRev, if_pos (Nat.div_eq_of_lt h), lastDigit]

/-- A longer number is its last digit and the digits of the rest. -/
theorem digitsRev_of_ge {fuel n : Nat} (h : 10 ≤ n) :
    digitsRev (fuel + 1) n = lastDigit n :: digitsRev fuel (n / 10) := by
  rw [digitsRev, if_neg (by omega), lastDigit]

/-- Every byte is an ASCII digit. -/
theorem digit_of_mem_digitsRev {fuel n : Nat} {d : Byte} (h : d ∈ digitsRev fuel n) :
    0x30 ≤ d.toNat ∧ d.toNat ≤ 0x39 := by
  have hlast (m : Nat) : 0x30 ≤ (lastDigit m).toNat ∧ (lastDigit m).toNat ≤ 0x39 := by
    rw [lastDigit_toNat]
    omega
  induction fuel generalizing n with
  | zero => cases h
  | succ fuel ih =>
    rcases Nat.lt_or_ge n 10 with hn | hn
    · rw [digitsRev_of_lt hn, List.mem_singleton] at h
      exact h ▸ hlast n
    · rw [digitsRev_of_ge hn, List.mem_cons] at h
      rcases h with rfl | h
      · exact hlast n
      · exact ih h

/-- The digits denote the number. -/
theorem digitsRev_value {fuel n : Nat} (h : n < fuel) :
    (digitsRev fuel n).foldr (fun d m => 10 * m + (d.toNat - 0x30)) 0 = n := by
  induction fuel generalizing n with
  | zero => omega
  | succ fuel ih =>
    rcases Nat.lt_or_ge n 10 with hn | hn
    · rw [digitsRev_of_lt hn, List.foldr_cons, List.foldr_nil, lastDigit_toNat]
      omega
    · rw [digitsRev_of_ge hn, List.foldr_cons, ih (by omega), lastDigit_toNat]
      omega

/-- The most significant digit of a nonzero number is not 0. -/
theorem digitsRev_getLast? {fuel n : Nat} (h : n < fuel) (h0 : n ≠ 0) :
    ∃ d, (digitsRev fuel n).getLast? = some d ∧ d ≠ 0x30#8 := by
  induction fuel generalizing n with
  | zero => omega
  | succ fuel ih =>
    rcases Nat.lt_or_ge n 10 with hn | hn
    · refine ⟨lastDigit n, by rw [digitsRev_of_lt hn]; rfl, fun hd => ?_⟩
      have hval := lastDigit_toNat n
      rw [hd, BitVec.toNat_ofNat] at hval
      omega
    · obtain ⟨d, hd, hne⟩ := ih (n := n / 10) (by omega) (by omega)
      exact ⟨d, by rw [digitsRev_of_ge hn, List.getLast?_cons, hd, Option.getD_some], hne⟩

end Sys2Proof.Machine
end

section
/-! Determinism of the register commands (41_register_update.md R103): two blocks with the invariant that agree on `CRC` and
`TVALID` answer alike and agree again. -/

namespace Sys2Proof.Machine
open Sys2Proof.Spec

/-- The commands of R103. -/
def registerMnemonics : List Mnemonic := [.INIT, .LOAD, .UPD, .UPDI, .IDX, .RDCRC]

/-- Both outcomes are next states with the same register, the same response and the same `TVALID`. -/
def AnswerAlike (o o' : Host.Outcome State Fault Refusal) : Prop :=
  ∃ t t', o = .next t ∧ o' = .next t' ∧ t.crc = t'.crc ∧ t.rsp = t'.rsp ∧ t.tvalid = t'.tvalid

section
variable {s s' : State} (h : s.Inv) (h' : s'.Inv) (hcrc : s.crc = s'.crc) (htv : s.tvalid = s'.tvalid)
include h h' hcrc htv

/-- An update at one index: refused in both blocks, or done with the same entry (10_state.md R12). -/
theorem withEntry_update_alike (x : Byte) : AnswerAlike (withEntry s x s.update) (withEntry s' x s'.update) := by
  cases hv : s.tvalid with
  | false => exact ⟨_, _, withEntry_noTable hv .., withEntry_noTable (htv ▸ hv) .., hcrc, rfl, htv⟩
  | true =>
    refine ⟨_, _, withEntry_built ⟨h, hv⟩ .., withEntry_built ⟨h', htv ▸ hv⟩ .., ?_, ?_, htv⟩
    · rw [State.update_crc, State.update_crc, hcrc]
    · rw [State.update_rsp, State.update_rsp, hcrc]

/-- Each register command answers alike. -/
theorem exec_alike {i : Instr} (hi : i.mnemonic ∈ registerMnemonics) : AnswerAlike (exec i s) (exec i s') := by
  cases i with
  | init => exact ⟨_, _, exec_init s, exec_init s', rfl, rfl, htv⟩
  | load v => exact ⟨_, _, exec_load v s, exec_load v s', rfl, rfl, htv⟩
  | upd b =>
    rw [exec_upd, exec_upd, ← hcrc]
    exact withEntry_update_alike h h' hcrc htv _
  | updi x => exact withEntry_update_alike h h' hcrc htv x
  | idx b =>
    rw [exec_idx, exec_idx, ← hcrc]
    exact ⟨_, _, rfl, rfl, hcrc, rfl, htv⟩
  | rdcrc =>
    rw [exec_rdcrc, exec_rdcrc, ← hcrc]
    exact ⟨_, _, rfl, rfl, hcrc, rfl, htv⟩
  | nop | build | rdtab b | rdst => exact absurd hi (by simp [Instr.mnemonic, registerMnemonics])

end

/-- A sequence of register commands answers alike. -/
theorem runCommands_alike {is : List Instr} (his : ∀ i ∈ is, i.mnemonic ∈ registerMnemonics) {s s' : State}
    (h : s.Inv) (h' : s'.Inv) (hcrc : s.crc = s'.crc) (htv : s.tvalid = s'.tvalid) :
    ∃ rs t t', runCommands is s = .next (rs, t) ∧ runCommands is s' = .next (rs, t') ∧ t.crc = t'.crc ∧
      t.tvalid = t'.tvalid := by
  induction is generalizing s s' with
  | nil => exact ⟨[], s, s', rfl, rfl, hcrc, htv⟩
  | cons i is ih =>
    obtain ⟨hi, his⟩ := List.forall_mem_cons.mp his
    obtain ⟨u, u', hu, hu', hcrcu, hrsp, htvu⟩ := exec_alike h h' hcrc htv hi
    obtain ⟨rs, t, t', hr, hr', hc, hv⟩ := ih his (exec_keeps_inv h hu) (exec_keeps_inv h' hu') hcrcu htvu
    have hr'' := runCommands_cons_eq hu' hr'
    rw [← hrsp] at hr''
    exact ⟨_, t, t', runCommands_cons_eq hu hr, hr'', hc, hv⟩

end Sys2Proof.Machine
end

section
/-! The obligations of the register update family. -/

namespace Sys2Proof
open Sys2Proof.Machine Sys2Proof.Spec Sys2Proof.Laws

/-- Settles O30: UPD is the guarded read at the computed index, and an update with what it reads. -/
theorem updUpdatesTheRegister : Obligations.UpdUpdatesTheRegister := by
  refine ⟨fun b => ?_, fun b s hv => ?_, fun b s v hv hr => ?_, refusesReservedBits (m := .UPD) rfl⟩
  · exact decode_ok_iff.mpr (encodeZ_or_byte 0x12#8 b).symm
  · exact exec_noTable rfl hv
  · exact withEntry_some hv hr s.update

/-- Settles O31: UPDI is the guarded read at its operand, which is the index that UPD of `CRC[7:0] ^ x` computes. -/
theorem updiUpdatesTheRegister : Obligations.UpdiUpdatesTheRegister := by
  refine ⟨fun x => ?_, fun x s hv => ?_, fun x s v hv hr => ?_, fun x s => ?_, refusesReservedBits (m := .UPDI) rfl⟩
  · exact decode_ok_iff.mpr (encodeZ_or_byte 0x13#8 x).symm
  · exact exec_noTable rfl hv
  · rw [BitVec.xor_comm v]
    exact withEntry_some hv hr s.update
  · rw [exec_updi, exec_upd, indexOf_low_xor]

/-- Settles O32: IDX answers the index that UPD reads at, and reads no table. -/
theorem idxReturnsTheIndex : Obligations.IdxReturnsTheIndex := by
  refine ⟨fun b => ?_, fun b s => exec_idx b s, fun b s => rfl, fun s => indexOf_zero s.crc,
    refusesReservedBits (m := .IDX) rfl⟩
  exact decode_ok_iff.mpr (encodeZ_or_byte 0x14#8 b).symm

/-- Settles O35: either command updates with `ENTRY(x)`, whose top byte stays and is no other entry's. -/
theorem topByteNamesTheIndex : Obligations.TopByteNamesTheIndex := by
  intro s t i x h hi ht
  have hupdate : exec i s = .next (s.update (entry x)) := by
    rcases hi with rfl | ⟨b, rfl, rfl⟩
    · exact withEntry_built h _ _
    · exact exec_upd_built h b
  rw [hupdate] at ht
  cases ht
  rw [State.update_crc, topByte_accumulate]
  exact ⟨rfl, fun y hy => topByte_entry_injective hy⟩

/-- Settles O36: the run is the fold of four updates, and the value it leaves is peeled from the top byte down. -/
theorem fourUpdatesForgetTheStart : Obligations.FourUpdatesForgetTheStart := by
  refine ⟨fun s x0 x1 x2 x3 h => ?_, fun _ _ _ _ _ _ _ _ hxy => fourEntries_inj hxy, fun x0 x1 x2 x3 ht hht => ?_⟩
  · have hrun := runCommands_updates exec_updi_showing h (exec_updi_showing h x0) [x1, x2, x3]
    exact ⟨_, _, hrun, foldl_advanceWith_four s.crc x0 x1 x2 x3⟩
  · subst hht
    exact fourEntries_peel x0 x1 x2 x3

/-- Settles O37: linearity from that of the entries; the stated inverse makes the update injective, hence bijective on the
finitely many registers. -/
theorem updateIsLinearAndInvertible : Obligations.UpdateIsLinearAndInvertible := by
  refine ⟨updateWith_xor, ?_, fun c => ?_, fun r c x h => register_of_updateWith h⟩
  · decide
  · exact Finite.injective_iff_bijective.mp (updateWith_injective c)

/-- Settles O38: command by command, and by induction on the sequence. -/
theorem registerCommandsAreDeterministic : Obligations.RegisterCommandsAreDeterministic :=
  ⟨fun _ _ _ hi h h' hcrc htv => exec_alike h h' hcrc htv hi,
    fun _ _ _ his h h' hcrc htv => runCommands_alike his h h' hcrc htv⟩

/-- Settles O39: the runs of CRCSTR and LASTIDX, the digits of a number, and the worked example evaluated. -/
theorem stringRegisterOnTheBlock : Obligations.StringRegisterOnTheBlock := by
  refine ⟨fun s bytes h => ?_, fun s front last h => ?_, fun bytes c => ⟨rfl, ?_⟩,
    fun n => ⟨⟨rfl, ?_⟩, fun h0 => ?_, ?_⟩, by decide, by decide⟩
  · refine ⟨_, _, runCommands_crcstr h bytes, rfl, ?_, ?_, rfl, h.2, rfl⟩
    · rw [List.getLast?_map, List.getLast?_scanl]
      rfl
    · rw [List.length_map, List.length_scanl]
  · obtain ⟨rs, hr⟩ := runCommands_lastidx h front last
    exact ⟨rs, _, hr, rfl, rfl⟩
  · exact List.foldl_concat ..
  · exact fun d hd => digit_of_mem_digitsRev (List.mem_reverse.mp hd)
  · obtain ⟨d, hd, hne⟩ := digitsRev_getLast? (Nat.lt_succ_self n) h0
    rw [decimal, List.head?_reverse, hd]
    exact fun he => hne (Option.some.inj he)
  · rw [decimal, List.foldl_reverse]
    exact digitsRev_value (Nat.lt_succ_self n)

/-- Settles O27: INIT is LOAD of the start value. -/
theorem initSetsTheStartValue : Obligations.InitSetsTheStartValue :=
  ⟨decode_encode .init, exec_init, fun _ => rfl, refusesArgument (m := .INIT) rfl⟩

/-- Settles O28: every word with the opcode of LOAD is its opcode over its operand. -/
theorem loadSetsTheRegister : Obligations.LoadSetsTheRegister :=
  ⟨fun v => decode_ok_iff.mpr (encodeZ_or_setWidth 0x11#8 v).symm, exec_load,
    fun _ hop => decode_ok_iff.mpr (encodeW_eq hop)⟩

/-- Settles O29: RDCRC answers the register as it stands. -/
theorem rdcrcReturnsTheRegister : Obligations.RdcrcReturnsTheRegister :=
  ⟨decode_encode .rdcrc, exec_rdcrc, refusesArgument (m := .RDCRC) rfl⟩

end Sys2Proof
end

section
/-! The obligations of the system family: the two commands that answer without writing any state of the block. -/

namespace Sys2Proof.Machine

/-- NOP answers 0 (42_system.md R110). -/
theorem exec_nop (s : State) : exec .nop s = .next (s.respond 0#32) := rfl

/-- RDST answers the STATUS view (42_system.md R111). -/
theorem exec_rdst (s : State) : exec .rdst s = .next (s.respond s.status) := rfl

end Sys2Proof.Machine

namespace Sys2Proof
open Sys2Proof.Machine Sys2Proof.Laws

/-- Settles O16: the all-zero word is NOP's encoding, and NOP only responds. -/
theorem nopChangesNothing : Obligations.NopChangesNothing :=
  ⟨decode_encode .nop, exec_nop, refusesArgument (m := .NOP) rfl⟩

/-- Settles O17: RDST responds with the STATUS view, whose layout is the word stated, and only responds. -/
theorem rdstReturnsStatus : Obligations.RdstReturnsStatus :=
  ⟨decode_encode .rdst, exec_rdst, refusesArgument (m := .RDST) rfl⟩

end Sys2Proof
end

section
/-! A run of legal words on a built block (48_host_cracker.md R131; 60_exceptions.md R142). -/

namespace Sys2Proof.Machine
open Sys2Proof.Laws Sys2Proof.Spec

/-- The second block is built and has the `ERR` of the first: what a sequence of commands without a refusal leaves. -/
def StaysBuilt (s t : State) : Prop := Built t ∧ t.err = s.err

theorem StaysBuilt.refl {s : State} (h : Built s) : StaysBuilt s s := ⟨h, rfl⟩

theorem StaysBuilt.trans {s t u : State} (hst : StaysBuilt s t) (htu : StaysBuilt t u) : StaysBuilt s u :=
  ⟨htu.1, htu.2.trans hst.2⟩

/-- A command on a built block leaves `ERR` alone: only a block without a table can refuse it (R142). -/
theorem exec_staysBuilt {i : Instr} {s t : State} (h : Built s) (he : exec i s = .next t) : StaysBuilt s t := by
  refine ⟨exec_keeps_built h he, ?_⟩
  by_contra herr
  obtain ⟨-, hv, -⟩ := exec_err_ne he herr
  exact absurd (h.2.symm.trans hv) (by decide)

/-- A command on a built block is answered with code `OK` (R142). -/
theorem exec_answers_ok {i : Instr} {s t : State} (h : Built s) (he : exec i s = .next t) :
    ∃ d, t.rsp = some (rspWord okCode d) := by
  rcases exec_next he with ⟨d, rfl, -, -⟩ | ⟨v, rfl, -⟩ | ⟨-, -, rfl⟩ | ⟨-, -, rfl⟩ | ⟨hv, -, -⟩ |
    ⟨x, v, -, -, -, -, rfl⟩
  -- the refusal without a table
  case inr.inr.inr.inr.inl => exact absurd (h.2.symm.trans hv) (by decide)
  all_goals exact ⟨_, rfl⟩

/-- A run of legal words on a built block is answered throughout with code `OK` and leaves `ERR` alone. -/
theorem runWords_legal {ws : List CmdWord} (hws : ∀ w ∈ ws, legalWord w = true) {s : State} (h : Built s) :
    ∃ rs t, runWords ws s = .next (rs, t) ∧ StaysBuilt s t ∧ ∀ r ∈ rs, rspCode r = okCode := by
  induction ws generalizing s with
  | nil => exact ⟨[], s, rfl, .refl h, by simp⟩
  | cons w ws ih =>
    obtain ⟨hw, hws⟩ := List.forall_mem_cons.mp hws
    obtain ⟨i, hd⟩ := legalWord_iff_decodes.mp hw
    obtain ⟨u, hu⟩ := exec_answers h.1 i
    have hsu := exec_staysBuilt h hu
    obtain ⟨d, hrsp⟩ := exec_answers_ok h hu
    obtain ⟨rs, t, hr, hut, hok⟩ := ih hws hsu.1
    refine ⟨_, t, runInputs_cons_eq ((acceptCommand_ok hd s).trans hu) hr, hsu.trans hut, fun r hr => ?_⟩
    rw [hrsp, Option.toList_some, List.singleton_append, List.mem_cons] at hr
    rcases hr with rfl | hr
    · exact rspCode_rspWord okCode d
    · exact hok r hr

end Sys2Proof.Machine
end

section
/-! The inversion (48_host_cracker.md R121): every 32-bit value is what four updates leave of four entries, and each
step finds the entry whose top byte it sees. -/

namespace Sys2Proof.Machine
open Sys2Proof.Spec

/-- The search finds the row with a top byte if it is among the last `n` rows. -/
theorem findRowFrom_entry (j : Byte) {n : Nat} (hn : n ≤ 256) (hj : 256 - n ≤ j.toNat) :
    findRowFrom entry ((entry j).extractLsb' 24 8) n = some j := by
  induction n with
  | zero => exact absurd j.isLt (by omega)
  | succ n ih =>
    rw [findRowFrom]
    split
    · next htop => rw [topByte_entry_injective htop]
    · next htop =>
      have hne : j.toNat ≠ 255 - n := fun hjn => htop (by rw [← hjn, BitVec.ofNat_toNat, BitVec.setWidth_eq])
      exact ih (by omega) (by omega)

/-- The top byte of an entry names its row (40_table_generator.md R77). -/
theorem findRow_entry (j : Byte) : findRow entry ((entry j).extractLsb' 24 8) = some j :=
  findRowFrom_entry j le_rfl (by omega)

/-- A step that sees the top byte of an entry takes that entry off. -/
theorem invertStep_entry {k : Nat} {ht : Word} {j : Byte} (h : ht.extractLsb' (8 * k) 8 = (entry j).extractLsb' 24 8) :
    invertStep entry k ht = some (j, ht ^^^ (entry j >>> ((3 - k) * 8))) := by
  rw [invertStep, extract_shiftRight, Nat.add_zero, h, findRow_entry]

/-- The inversion of what four updates leave gives their indices, last one first, and ends in 0. -/
theorem invertRegister_fourEntries (x0 x1 x2 x3 : Byte) :
    invertRegister entry (fourEntries x0 x1 x2 x3) = some (⟨x3, x2, x1, x0⟩, 0#32) := by
  obtain ⟨h3, h2, h1, h0⟩ := fourEntries_peel x0 x1 x2 x3
  have hzero : fourEntries x0 x1 x2 x3 ^^^ entry x3 ^^^ (entry x2 >>> 8) ^^^ (entry x1 >>> 16) ^^^ (entry x0 >>> 24) =
      0#32 := by
    rw [← BitVec.xor_self (x := fourEntries x0 x1 x2 x3)]
    simp only [fourEntries, BitVec.xor_assoc]
  have step3 := invertStep_entry (k := 3) h3
  have step2 := invertStep_entry (k := 2) h2
  have step1 := invertStep_entry (k := 1) h1
  have step0 := invertStep_entry (k := 0) h0
  simp only [Nat.reduceSub, Nat.reduceMul, BitVec.ushiftRight_zero] at step3 step2 step1 step0
  rw [hzero] at step0
  simp only [invertRegister, step3, step2, step1, step0]

/-- Every register is what an update by some index leaves of another (41_register_update.md R102). -/
theorem exists_advanceWith_eq (ht : Word) : ∃ r x, advanceWith entry r x = ht := by
  obtain ⟨r, hr⟩ := Finite.injective_iff_surjective.mp (updateWith_injective 0#8) ht
  exact ⟨r, indexOf r 0#8, (advanceWith_entry r _).trans hr⟩

/-- Every register is what four updates leave of their entries (90_conflicts.md C4). -/
theorem exists_fourEntries_eq (ht : Word) : ∃ x0 x1 x2 x3, fourEntries x0 x1 x2 x3 = ht := by
  obtain ⟨r3, x3, rfl⟩ := exists_advanceWith_eq ht
  obtain ⟨r2, x2, rfl⟩ := exists_advanceWith_eq r3
  obtain ⟨r1, x1, rfl⟩ := exists_advanceWith_eq r2
  obtain ⟨r0, x0, rfl⟩ := exists_advanceWith_eq r1
  exact ⟨x0, x1, x2, x3, (foldl_advanceWith_four r0 x0 x1 x2 x3).symm⟩

/-- Recovery from the published form of what four updates leave. -/
theorem recoverIndices_fourEntries (x0 x1 x2 x3 : Byte) :
    recoverIndices entry (~~~ fourEntries x0 x1 x2 x3) = some ⟨x3, x2, x1, x0⟩ := by
  have hcompl : ~~~ fourEntries x0 x1 x2 x3 ^^^ 0xFFFFFFFF = fourEntries x0 x1 x2 x3 := by
    rw [show (0xFFFFFFFF : Word) = BitVec.allOnes 32 from rfl, BitVec.xor_allOnes, BitVec.not_not]
  rw [recoverIndices, hcompl, invertRegister_fourEntries, Option.map_some]

/-- The recovered indices of a hash are those whose four entries leave its complement. -/
theorem recoverIndices_eq_some_iff {h : Word} {si : SuffixIndex} :
    recoverIndices entry h = some si ↔ ~~~ fourEntries si.s3 si.s2 si.s1 si.s0 = h := by
  constructor
  · intro hsi
    obtain ⟨x0, x1, x2, x3, hx⟩ := exists_fourEntries_eq (~~~ h)
    obtain rfl : ~~~ fourEntries x0 x1 x2 x3 = h := by rw [hx, BitVec.not_not]
    rw [recoverIndices_fourEntries] at hsi
    cases hsi
    rfl
  · rintro rfl
    exact recoverIndices_fourEntries ..

/-- Recovery succeeds for every hash (90_conflicts.md C4). -/
theorem exists_recoverIndices (h : Word) : ∃ si, recoverIndices entry h = some si := by
  obtain ⟨x0, x1, x2, x3, hx⟩ := exists_fourEntries_eq (~~~ h)
  exact ⟨⟨x3, x2, x1, x0⟩, recoverIndices_eq_some_iff.mpr (by rw [hx, BitVec.not_not])⟩

end Sys2Proof.Machine
end

section
/-! What the filter and the validator accept (48_host_cracker.md R122, R123, R130): the bytes of a completion use the
recovered indices, and the four last indices fix the hash. -/

namespace Sys2Proof.Machine
open Sys2Proof.Spec

/-- The indices that the updates with the bytes of a string use, from a register. -/
def indicesFrom (T : Byte → Word) : Word → List Byte → List Byte
  | _, [] => []
  | r, c :: cs => indexOf r c :: indicesFrom T (updateWith T r c) cs

theorem length_indicesFrom (T : Byte → Word) (r : Word) (bytes : List Byte) :
    (indicesFrom T r bytes).length = bytes.length := by
  induction bytes generalizing r with
  | nil => rfl
  | cons c cs ih => rw [indicesFrom, List.length_cons, List.length_cons, ih]

/-- An update with a byte is the update with the index it computes (41_register_update.md R94, R95). -/
theorem updateWith_eq_advanceWith (T : Byte → Word) (r : Word) (c : Byte) :
    updateWith T r c = advanceWith T r (indexOf r c) := BitVec.xor_comm _ _

/-- The update with the byte that uses an index (R123). -/
theorem updateWith_low_xor (T : Byte → Word) (r : Word) (x : Byte) :
    updateWith T r (r.extractLsb' 0 8 ^^^ x) = advanceWith T r x := by
  rw [updateWith_eq_advanceWith, indexOf_low_xor]

theorem registerFrom_cons (T : Byte → Word) (r : Word) (c : Byte) (cs : List Byte) :
    registerFrom T r (c :: cs) = registerFrom T (updateWith T r c) cs := rfl

/-- The register after a string is the register after the indices it uses. -/
theorem registerFrom_eq_foldl_advanceWith (T : Byte → Word) (r : Word) (bytes : List Byte) :
    registerFrom T r bytes = (indicesFrom T r bytes).foldl (advanceWith T) r := by
  induction bytes generalizing r with
  | nil => rfl
  | cons c cs ih =>
    rw [indicesFrom, List.foldl_cons, ← updateWith_eq_advanceWith, ← ih]
    rfl

/-- A byte uses an index exactly when it is the low byte of the register XOR the index (R123). -/
theorem indexOf_eq_iff {r : Word} {c x : Byte} : indexOf r c = x ↔ c = r.extractLsb' 0 8 ^^^ x := by
  constructor
  · rintro rfl
    rw [indexOf_eq, ← BitVec.xor_assoc, BitVec.xor_self, BitVec.zero_xor]
  · exact fun hc => hc ▸ indexOf_low_xor r x

theorem isDigit_iff {b : Byte} : isDigit b = true ↔ 0x30 ≤ b.toNat ∧ b.toNat ≤ 0x39 := decide_eq_true_iff

/-- The validator's steps give exactly the digits that use the indices. -/
theorem validateFrom_eq_some_iff {T : Byte → Word} {xs : List Byte} {r : Word} {ds : List Byte} :
    validateFrom T xs r = some ds ↔ (∀ d ∈ ds, isDigit d = true) ∧ indicesFrom T r ds = xs := by
  induction xs generalizing r ds with
  | nil => cases ds <;> simp [validateFrom, indicesFrom]
  | cons x xs ih =>
    cases ds with
    | nil => simp [validateFrom, indicesFrom]
    | cons d ds =>
      rw [validateFrom, indicesFrom, List.cons.injEq, indexOf_eq_iff, List.forall_mem_cons]
      by_cases hd : d = r.extractLsb' 0 8 ^^^ x
      · rw [hd, updateWith_low_xor]
        split <;> simp [*]
      · -- the validator answers the byte that uses `x`, and `d` is another
        split <;> simp [hd, Ne.symm hd]

/-- The raw register of a string and further bytes. -/
theorem rawRegister_append (T : Byte → Word) (front bytes : List Byte) :
    rawRegister T (front ++ bytes) = registerFrom T (rawRegister T front) bytes := List.foldl_append ..

theorem rawRegister_concat (T : Byte → Word) (front : List Byte) (last : Byte) :
    rawRegister T (front ++ [last]) = updateWith T (rawRegister T front) last := List.foldl_concat ..

/-- The decimal string of an integer has a last digit. -/
theorem exists_decimal_eq_concat (i : Nat) : ∃ front last, decimal i = front ++ [last] :=
  ⟨_, _, List.reverse_cons⟩

section
variable {i : Nat} {front : List Byte} {last : Byte} (hi : decimal i = front ++ [last])
include hi

/-- The filter compares the index of the last digit (R122). -/
theorem passesFilter_of_concat (T : Byte → Word) (si : SuffixIndex) :
    passesFilter T si i = true ↔ lastIndex T front last = si.s3 := by
  simp [passesFilter, hi]

/-- The register of a candidate and further bytes, by the four last indices. -/
theorem rawRegister_of_concat (T : Byte → Word) (ds : List Byte) :
    rawRegister T (decimal i ++ ds) =
      (lastIndex T front last :: indicesFrom T (rawRegister T (decimal i)) ds).foldl (advanceWith T)
        (rawRegister T front) := by
  rw [hi, List.append_assoc, rawRegister_append, registerFrom_eq_foldl_advanceWith, rawRegister_concat]
  rfl

end

/-- The answer of the filter and the validator for one candidate (R122, R123). -/
def candidateAnswer (T : Byte → Word) (si : SuffixIndex) (i : Nat) : Option (List Byte) :=
  if passesFilter T si i = true then validate T si i else none

theorem candidateAnswer_eq_some {T : Byte → Word} {si : SuffixIndex} {i : Nat} {ds : List Byte} :
    candidateAnswer T si i = some ds ↔ passesFilter T si i = true ∧ validate T si i = some ds := by
  simp [candidateAnswer]

/-- Three digits complete a candidate to the hash. -/
def Completes (h : Word) (i : Nat) (ds : List Byte) : Prop :=
  DigitString 3 ds ∧ publishedHash entry (decimal i ++ ds) = h

section
variable {h : Word} {si : SuffixIndex} (hsi : recoverIndices entry h = some si)
include hsi

/-- A string has the hash exactly when its last four updates use the recovered indices (R121, R130). -/
theorem publishedHash_eq_iff {i : Nat} {ds : List Byte} (hds : ds.length = 3) :
    publishedHash entry (decimal i ++ ds) = h ↔ passesFilter entry si i = true ∧
      indicesFrom entry (rawRegister entry (decimal i)) ds = [si.s2, si.s1, si.s0] := by
  obtain ⟨front, last, hi⟩ := exists_decimal_eq_concat i
  obtain ⟨d2, d1, d0, rfl⟩ := List.length_eq_three.mp hds
  rw [passesFilter_of_concat hi, publishedHash, rawRegister_of_concat hi]
  simp only [indicesFrom]
  rw [foldl_advanceWith_four, ← recoverIndices_eq_some_iff.mp hsi, BitVec.not_inj, List.cons.injEq, List.cons.injEq,
    List.cons.injEq, and_iff_left rfl]
  exact ⟨fourEntries_inj, fun ⟨h3, h2, h1, h0⟩ => by rw [h3, h2, h1, h0]⟩

/-- The filter and the validator accept a candidate exactly with the digits that complete it to the hash (R130). -/
theorem candidateAnswer_eq_some_iff {i : Nat} {ds : List Byte} :
    candidateAnswer entry si i = some ds ↔ Completes h i ds := by
  rw [candidateAnswer_eq_some, validate, validateFrom_eq_some_iff, Completes, DigitString]
  constructor
  · rintro ⟨hfilter, hdigits, hindices⟩
    have hlen : ds.length = 3 := by rw [← length_indicesFrom, hindices]; rfl
    exact ⟨⟨hlen, fun d hd => isDigit_iff.mp (hdigits d hd)⟩, (publishedHash_eq_iff hsi hlen).mpr ⟨hfilter, hindices⟩⟩
  · rintro ⟨⟨hlen, hdigits⟩, hhash⟩
    obtain ⟨hfilter, hindices⟩ := (publishedHash_eq_iff hsi hlen).mp hhash
    exact ⟨hfilter, fun d hd => isDigit_iff.mpr (hdigits d hd), hindices⟩

/-- The filter or the validator rejects a candidate exactly when no three digits complete it to the hash. -/
theorem candidateAnswer_eq_none_iff {i : Nat} :
    candidateAnswer entry si i = none ↔ ∀ ds, ¬ Completes h i ds := by
  simp only [Option.eq_none_iff_forall_ne_some, ne_eq, candidateAnswer_eq_some_iff hsi]

end

end Sys2Proof.Machine
end

section
/-! The search and the workers (48_host_cracker.md R125, R129): both give the smallest accepted candidate, and there
is at most one. -/

namespace Sys2Proof.Machine
open Sys2Proof.Spec

section
variable (T : Byte → Word) (si : SuffixIndex)

/-- A worker takes the first candidate if it is accepted, and goes on otherwise. -/
theorem workerHit_succ (n i : Nat) :
    workerHit T si (n + 1) i =
      match candidateAnswer T si i with
      | some ds => some (i, decimal i ++ ds)
      | none => workerHit T si n (i + 1) := by
  rw [workerHit, candidateAnswer]
  split <;> rfl

/-- The search takes the first candidate if it is accepted, and goes on otherwise (R125). -/
theorem searchFrom_succ (n i : Nat) :
    searchFrom T si (n + 1) i =
      match candidateAnswer T si i with
      | some ds => .solution (decimal i ++ ds)
      | none => searchFrom T si n (i + 1) := by
  rw [searchFrom, candidateAnswer]
  split <;> rfl

/-- The result a hit stands for. -/
def resultOfHit : Option (Nat × List Byte) → CrackResult
  | some (_, bytes) => .solution bytes
  | none => .notFound

/-- The search gives the hit of a worker that owns all its candidates. -/
theorem searchFrom_eq_resultOfHit (n i : Nat) : searchFrom T si n i = resultOfHit (workerHit T si n i) := by
  induction n generalizing i with
  | zero => rfl
  | succ n ih =>
    rw [searchFrom_succ, workerHit_succ]
    cases candidateAnswer T si i with
    | none => exact ih (i + 1)
    | some ds => rfl

/-- The minimum of the hits of workers that own the ranges (R129). -/
def workersHit (ranges : List (Nat × Nat)) : Option (Nat × List Byte) :=
  ranges.foldr (fun r best => smallerHit (workerHit T si r.2 r.1) best) none

/-- The hit is the smallest accepted candidate of a set, with its solution, or none if no candidate of the set is
accepted. -/
def IsSmallestHit (P : Nat → Prop) : Option (Nat × List Byte) → Prop
  | none => ∀ i, P i → candidateAnswer T si i = none
  | some (q, bytes) => P q ∧ (∃ ds, candidateAnswer T si q = some ds ∧ bytes = decimal q ++ ds) ∧
      ∀ i, P i → i < q → candidateAnswer T si i = none

end

section
variable {T : Byte → Word} {si : SuffixIndex}

/-- Two smallest hits of the same set are equal. -/
theorem IsSmallestHit.unique {P : Nat → Prop} {a b : Option (Nat × List Byte)} (ha : IsSmallestHit T si P a)
    (hb : IsSmallestHit T si P b) : a = b := by
  have hnone {q : Nat} {bytes : List Byte} (hs : IsSmallestHit T si P (some (q, bytes))) :
      ¬ IsSmallestHit T si P none := by
    obtain ⟨hq, ⟨ds, hds, -⟩, -⟩ := hs
    intro hn
    rw [hn q hq] at hds
    cases hds
  match a, b with
  | none, none => rfl
  | none, some _ => exact absurd ha (hnone hb)
  | some _, none => exact absurd hb (hnone ha)
  | some (q, bytes), some (q', bytes') =>
    obtain ⟨hq, ⟨ds, hds, rfl⟩, hmin⟩ := ha
    obtain ⟨hq', ⟨ds', hds', rfl⟩, hmin'⟩ := hb
    have hqq : q = q' := by
      rcases Nat.lt_trichotomy q q' with hlt | heq | hlt
      · rw [hmin' q hq hlt] at hds; cases hds
      · exact heq
      · rw [hmin q' hq' hlt] at hds'; cases hds'
    subst hqq
    rw [hds] at hds'
    cases hds'
    rfl

/-- A worker finds the smallest accepted candidate of its range (R129). -/
theorem workerHit_isSmallestHit (n i : Nat) :
    IsSmallestHit T si (fun j => i ≤ j ∧ j < i + n) (workerHit T si n i) := by
  induction n generalizing i with
  | zero => exact fun j hj => absurd hj.2 (by omega)
  | succ n ih =>
    rw [workerHit_succ]
    cases hc : candidateAnswer T si i with
    | some ds => exact ⟨⟨le_rfl, by omega⟩, ⟨ds, hc, rfl⟩, fun j hj hlt => absurd hj.1 (by omega)⟩
    | none =>
      have hrest := ih (i + 1)
      have hsplit {j : Nat} (hj : i ≤ j) : j = i ∨ i + 1 ≤ j := by omega
      revert hrest
      cases workerHit T si n (i + 1) with
      | none =>
        intro hrest j hj
        rcases hsplit hj.1 with rfl | hj'
        · exact hc
        · exact hrest j ⟨hj', by omega⟩
      | some hit =>
        rintro ⟨hq, hds, hmin⟩
        refine ⟨⟨by omega, by omega⟩, hds, fun j hj hlt => ?_⟩
        rcases hsplit hj.1 with rfl | hj'
        · exact hc
        · exact hmin j ⟨hj', by omega⟩ hlt

/-- The smaller of two smallest hits is the smallest hit of both sets together. -/
theorem smallerHit_isSmallestHit {P Q : Nat → Prop} {a b : Option (Nat × List Byte)} (ha : IsSmallestHit T si P a)
    (hb : IsSmallestHit T si Q b) : IsSmallestHit T si (fun i => P i ∨ Q i) (smallerHit a b) := by
  match a, b with
  | none, none => exact fun i hi => hi.elim (ha i) (hb i)
  | none, some (q, _) =>
    obtain ⟨hq, hds, hmin⟩ := hb
    exact ⟨.inr hq, hds, fun i hi hlt => hi.elim (ha i) (hmin i · hlt)⟩
  | some (q, _), none =>
    obtain ⟨hq, hds, hmin⟩ := ha
    exact ⟨.inl hq, hds, fun i hi hlt => hi.elim (hmin i · hlt) (hb i)⟩
  | some (q, _), some (q', _) =>
    obtain ⟨hq, hds, hmin⟩ := ha
    obtain ⟨hq', hds', hmin'⟩ := hb
    rw [smallerHit]
    split
    · next hle => exact ⟨.inl hq, hds, fun i hi hlt => hi.elim (hmin i · hlt) (hmin' i · (lt_of_lt_of_le hlt hle))⟩
    · next hgt => exact ⟨.inr hq', hds', fun i hi hlt => hi.elim (hmin i · (by omega)) (hmin' i · hlt)⟩

/-- The minimum of the workers' hits is the smallest hit of all their ranges together (R129). -/
theorem workersHit_isSmallestHit (ranges : List (Nat × Nat)) :
    IsSmallestHit T si (fun i => ∃ r ∈ ranges, r.1 ≤ i ∧ i < r.1 + r.2) (workersHit T si ranges) := by
  induction ranges with
  | nil => exact fun i hi => by simp at hi
  | cons r rs ih =>
    simp only [List.exists_mem_cons_iff]
    exact smallerHit_isSmallestHit (workerHit_isSmallestHit r.2 r.1) ih

end

/-- The search below a ceiling finds the smallest accepted candidate below it (R125). -/
theorem workerHit_ceiling_isSmallestHit (T : Byte → Word) (si : SuffixIndex) (ceiling : Nat) :
    IsSmallestHit T si (· < ceiling) (workerHit T si ceiling 0) := by
  have hworker := workerHit_isSmallestHit (T := T) (si := si) ceiling 0
  simpa only [Nat.zero_le, true_and, Nat.zero_add] using hworker

/-- `crack` once the indices are recovered. -/
theorem crack_eq_resultOfHit {T : Byte → Word} {h : Word} {si : SuffixIndex} (hsi : recoverIndices T h = some si)
    (ceiling : Nat) : crack T ceiling h = resultOfHit (workerHit T si ceiling 0) := by
  rw [crack, hsi]
  exact searchFrom_eq_resultOfHit T si ceiling 0

/-- `crackWorkers` once the indices are recovered. -/
theorem crackWorkers_eq_resultOfHit {T : Byte → Word} {h : Word} {si : SuffixIndex} (hsi : recoverIndices T h = some si)
    (ranges : List (Nat × Nat)) : crackWorkers T ranges h = resultOfHit (workersHit T si ranges) := by
  rw [crackWorkers, hsi]
  rfl

/-- What `crack` answers over the built table: the completion of the smallest candidate that has one, or `NotFound` if
none below the ceiling has (R125, R130). -/
theorem crack_cases (ceiling : Nat) (h : Word) :
    (crack entry ceiling h = .notFound ∧ ∀ i ds, i < ceiling → ¬ Completes h i ds) ∨
    ∃ q ds, crack entry ceiling h = .solution (decimal q ++ ds) ∧ q < ceiling ∧ (∀ es, Completes h q es ↔ es = ds) ∧
      ∀ i es, i < q → ¬ Completes h i es := by
  obtain ⟨si, hsi⟩ := exists_recoverIndices h
  have hsmallest := workerHit_ceiling_isSmallestHit entry si ceiling
  rw [crack_eq_resultOfHit hsi]
  match hhit : workerHit entry si ceiling 0 with
  | none =>
    rw [hhit] at hsmallest
    exact .inl ⟨rfl, fun i ds hi => (candidateAnswer_eq_none_iff hsi).mp (hsmallest i hi) ds⟩
  | some (q, bytes) =>
    rw [hhit] at hsmallest
    obtain ⟨hq, ⟨ds, hds, rfl⟩, hmin⟩ := hsmallest
    refine .inr ⟨q, ds, rfl, hq, fun es => ?_, fun i es hi =>
      (candidateAnswer_eq_none_iff hsi).mp (hmin i (lt_trans hi hq) hi) es⟩
    rw [← candidateAnswer_eq_some_iff hsi, hds, Option.some.injEq, eq_comm]

end Sys2Proof.Machine
end

section
/-! The commands of the cracker on a built block (48_host_cracker.md R131): what issuing each gives the host, and that
the steps of the host program are those of the functions. -/

namespace Sys2Proof.Machine
open Sys2Proof.Spec

/-- A command that answers with data `d` gives the host that data. -/
theorem issue_of_exec {i : Instr} {s t : State} {d : Word} (he : exec i s = .next t)
    (hr : t.rsp = some (rspWord okCode d)) : issue i s = some (d, t) :=
  issue_ok ((takeInput_encode i s).trans he) hr

/-- A candidate's commands leave the register of its string, and answer its last index before the last update (R131). -/
theorem runCommands_candidate {s : State} (h : Built s) (front : List Byte) (last : Byte) :
    ∃ rs t, runCommands (candidateCommands front last) s = .next (rs, t) ∧
      t.crc = rawRegister entry (front ++ [last]) ∧
      rs[front.length + 1]? = some (rspWord okCode (0#24 ++ lastIndex entry front last)) ∧ StaysBuilt s t := by
  have hfront := runCommands_crcstr h front
  have hidx := exec_idx last (s.showing (rawRegister entry front))
  have hshow := showing_built h (rawRegister entry front)
  have hbuilt := exec_keeps_built hshow hidx
  have hrun := runCommands_concat_eq (runCommands_concat_eq hfront hidx) (exec_upd_showing hbuilt last)
  refine ⟨_, _, hrun, (rawRegister_concat ..).symm, ?_, showing_built hbuilt _, rfl⟩
  -- the IDX response stands after the `front.length + 1` responses to INIT and UPD
  rw [List.append_assoc, List.getElem?_append_right] <;> rw [List.length_map, List.length_scanl]
  rw [Nat.sub_self]
  rfl

/-- A command issued on a built block keeps it built, with its `ERR`. -/
theorem issue_staysBuilt {i : Instr} {s t : State} {d : Word} (h : Built s) (hi : issue i s = some (d, t)) :
    StaysBuilt s t :=
  exec_staysBuilt h ((takeInput_encode i s).symm.trans (issue_some hi).1)

theorem issue_init (s : State) : issue .init s = some (INITV, s.showing INITV) := issue_of_exec (exec_init s) rfl

/-- IDX gives the host the computed index. -/
theorem issue_idx (b : Byte) (s : State) :
    issue (.idx b) s = some (zext32 (indexOf s.crc b), s.respond (zext32 (indexOf s.crc b))) :=
  issue_of_exec rfl rfl

/-- `IDX 0x00` gives the host the low byte of the register (R123). -/
theorem issue_idx_zero (s : State) :
    issue (.idx 0x00) s = some (zext32 (s.crc.extractLsb' 0 8), s.respond (zext32 (s.crc.extractLsb' 0 8))) := by
  rw [← indexOf_zero]
  exact issue_idx 0#8 s

/-- The host's comparison of IDX data compares the indices. -/
theorem zext32_inj {a b : Byte} : zext32 a = zext32 b ↔ a = b :=
  ⟨fun hab => by rw [← low_zext32 a, hab, low_zext32], congrArg zext32⟩

section
variable {s : State} (h : Built s)
include h

theorem issue_upd (b : Byte) :
    issue (.upd b) s = some (updateWith entry s.crc b, s.showing (updateWith entry s.crc b)) :=
  issue_of_exec (exec_upd_showing h b) rfl

theorem issue_updi (x : Byte) :
    issue (.updi x) s = some (advanceWith entry s.crc x, s.showing (advanceWith entry s.crc x)) :=
  issue_of_exec (exec_updi_showing h x) rfl

theorem issue_rdtab (b : Byte) : issue (.rdtab b) s = some (entry b, s.respond (entry b)) :=
  issue_of_exec (withEntry_built h b s.respond) rfl

/-- One UPD per byte takes the register through the bytes (41_register_update.md R97). -/
theorem issueAll_upds (bytes : List Byte) :
    ∃ ds t, issueAll (bytes.map .upd) s = some (ds, t) ∧ StaysBuilt s t ∧ t.crc = registerFrom entry s.crc bytes := by
  induction bytes generalizing s with
  | nil => exact ⟨[], s, rfl, .refl h, rfl⟩
  | cons b bytes ih =>
    have hb := issue_upd h b
    have hst := issue_staysBuilt h hb
    obtain ⟨ds, t, hds, ht, hc⟩ := ih hst.1
    exact ⟨_, t, issueAll_cons hb hds, hst.trans ht, hc⟩

/-- INIT and one UPD per byte leave the raw register of the bytes (41_register_update.md R97). -/
theorem issueAll_crcstr (bytes : List Byte) :
    ∃ ds t, issueAll (.init :: bytes.map .upd) s = some (ds, t) ∧ StaysBuilt s t ∧ t.crc = rawRegister entry bytes := by
  have hinit := issue_init s
  have hst := issue_staysBuilt h hinit
  obtain ⟨ds, t, hds, ht, hcrc⟩ := issueAll_upds hst.1 bytes
  exact ⟨_, t, issueAll_cons hinit hds, hst.trans ht, hcrc⟩

/-- One RDTAB per index gives the entries. -/
theorem issueAll_rdtabs (bytes : List Byte) :
    ∃ t, issueAll (bytes.map .rdtab) s = some (bytes.map entry, t) ∧ StaysBuilt s t := by
  induction bytes generalizing s with
  | nil => exact ⟨s, rfl, .refl h⟩
  | cons b bytes ih =>
    have hb := issue_rdtab h b
    have hst := issue_staysBuilt h hb
    obtain ⟨t, hds, ht⟩ := ih hst.1
    exact ⟨t, issueAll_cons hb hds, hst.trans ht⟩

/-- The validator on the block answers like the validator, and leaves the register of the digits it accepts (R123). -/
theorem validateOnBlock_eq (xs : List Byte) :
    ∃ t, validateOnBlock xs s = some (validateFrom entry xs s.crc, t) ∧ StaysBuilt s t ∧
      ∀ ds, validateFrom entry xs s.crc = some ds → t.crc = registerFrom entry s.crc ds := by
  induction xs generalizing s with
  | nil => exact ⟨s, rfl, .refl h, fun ds hds => by cases hds; rfl⟩
  | cons x xs ih =>
    have hidx := issue_idx_zero s
    have hst := issue_staysBuilt h hidx
    simp only [validateOnBlock, hidx, validateFrom, low_zext32]
    split
    · have hupdi := issue_updi hst.1 x
      have htu := issue_staysBuilt hst.1 hupdi
      obtain ⟨t, ht, hut, hcrc⟩ := ih htu.1
      simp only [hupdi, ht]
      refine ⟨t, rfl, (hst.trans htu).trans hut, fun ds hds => ?_⟩
      obtain ⟨ds', hds', rfl⟩ := Option.map_eq_some_iff.mp hds
      rw [hcrc ds' hds', registerFrom_cons, updateWith_low_xor]
      rfl
    · exact ⟨_, rfl, hst, fun ds hds => by cases hds⟩

/-- One candidate on the block is the filter and the validator (R131). -/
theorem candidateOnBlock_eq (si : SuffixIndex) (i : Nat) :
    ∃ t, candidateOnBlock si i s = some (candidateAnswer entry si i, t) ∧ StaysBuilt s t ∧
      ∀ ds, candidateAnswer entry si i = some ds → t.crc = rawRegister entry (decimal i ++ ds) := by
  obtain ⟨front, last, hi⟩ := exists_decimal_eq_concat i
  have hrev : (decimal i).reverse = last :: front.reverse := by rw [hi, List.reverse_concat]
  obtain ⟨_, t, ht, hst, hcrc⟩ := issueAll_crcstr h front
  have hindex : indexOf t.crc last = lastIndex entry front last := by rw [hcrc]; rfl
  have hreg : updateWith entry t.crc last = rawRegister entry (decimal i) := by rw [hcrc, hi, rawRegister_concat]
  have hidx := issue_idx last t
  rw [hindex] at hidx
  have htu := issue_staysBuilt hst.1 hidx
  simp only [candidateOnBlock, hrev, List.reverse_reverse, ht, hidx, zext32_inj, candidateAnswer,
    passesFilter_of_concat hi]
  split
  · have hupd := issue_upd htu.1 last
    rw [State.respond_crc, hreg] at hupd
    have huv := issue_staysBuilt htu.1 hupd
    obtain ⟨w, hw, hvw, hcrcw⟩ := validateOnBlock_eq huv.1 [si.s2, si.s1, si.s0]
    simp only [hupd]
    refine ⟨w, hw, ((hst.trans htu).trans huv).trans hvw, fun ds hds => ?_⟩
    rw [hcrcw ds hds, rawRegister_append]
    rfl
  · exact ⟨_, rfl, hst.trans htu, fun ds hds => by cases hds⟩

/-- The search on the block is the search (R125). -/
theorem searchOnBlock_eq (si : SuffixIndex) (n i : Nat) :
    ∃ t, searchOnBlock si n i s = some (searchFrom entry si n i, t) ∧ StaysBuilt s t := by
  induction n generalizing i s with
  | zero => exact ⟨s, rfl, .refl h⟩
  | succ n ih =>
    obtain ⟨t, ht, hst, -⟩ := candidateOnBlock_eq h si i
    rw [searchOnBlock, ht, searchFrom_succ]
    cases candidateAnswer entry si i with
    | some ds => exact ⟨t, rfl, hst⟩
    | none =>
      obtain ⟨u, hu, htu⟩ := ih hst.1 (i + 1)
      exact ⟨u, hu, hst.trans htu⟩

section
variable {copy : List Word} (hcopy : hostTable copy = entry)
include hcopy

/-- One hash on the block is `crack`. -/
theorem crackOnBlock_eq (ceiling : Nat) (hash : Word) :
    ∃ t, crackOnBlock copy ceiling hash s = some (crack entry ceiling hash, t) ∧ StaysBuilt s t := by
  rw [crackOnBlock, crack, hcopy]
  cases recoverIndices entry hash with
  | none => exact ⟨s, rfl, .refl h⟩
  | some si => exact searchOnBlock_eq h si ceiling 0

/-- Several hashes on the block, one after another. -/
theorem crackAllOnBlock_eq (ceiling : Nat) (hashes : List Word) :
    ∃ t, crackAllOnBlock copy ceiling hashes s = some (hashes.map (crack entry ceiling), t) ∧ StaysBuilt s t := by
  induction hashes generalizing s with
  | nil => exact ⟨s, rfl, .refl h⟩
  | cons hash hashes ih =>
    obtain ⟨t, ht, hst⟩ := crackOnBlock_eq h hcopy ceiling hash
    obtain ⟨u, hu, htu⟩ := ih hst.1
    refine ⟨u, ?_, hst.trans htu⟩
    simp only [crackAllOnBlock, ht, hu, List.map_cons]

end
end

/-- BUILD makes a built block and is not refused. -/
theorem issue_build {s : State} (h : s.Inv) : ∃ t, issue .build s = some (0, t) ∧ StaysBuilt s t := by
  cases hv : s.tvalid with
  | true =>
    have hb := issue_of_exec (exec_build_built hv) rfl
    exact ⟨_, hb, issue_staysBuilt ⟨h, hv⟩ hb⟩
  | false =>
    have hb := exec_build_unbuilt hv
    exact ⟨_, issue_of_exec hb rfl, ⟨exec_keeps_inv h hb, rfl⟩, rfl⟩

/-- The set-up gives the host all entries in order (R131). -/
theorem setUp_eq {s : State} (h : s.Inv) :
    ∃ t, setUp s = some ((List.range ENTRIES).map fun k => entry (BitVec.ofNat 8 k), t) ∧ StaysBuilt s t := by
  obtain ⟨t, ht, hst⟩ := issue_build h
  obtain ⟨u, hu, htu⟩ := issueAll_rdtabs hst.1 ((List.range ENTRIES).map (BitVec.ofNat 8))
  rw [List.map_map, List.map_map] at hu
  refine ⟨u, ?_, hst.trans htu⟩
  rw [setUp, ht]
  exact hu

/-- The host's copy of a built table is `ENTRY`. -/
theorem hostTable_entries : hostTable ((List.range ENTRIES).map fun k => entry (BitVec.ofNat 8 k)) = entry := by
  funext i
  simp [hostTable, ENTRIES, i.isLt]

end Sys2Proof.Machine
end

section
/-! The obligations of the cracker family. -/

namespace Sys2Proof
open Sys2Proof.Machine Sys2Proof.Spec

/-- Settles O42: on a built block each legal word is a command that executes. -/
theorem legalRunOnBuiltTableIsSafe : Obligations.LegalRunOnBuiltTableIsSafe := by
  intro ws s h hws
  obtain ⟨rs, t, hr, hst, hok⟩ := runWords_legal hws h
  exact ⟨rs, t, hr, hst.2, hok⟩

/-- Settles O48: every value is what four updates leave, and the inversion takes their entries off one by one. -/
theorem inversionAlwaysSucceeds : Obligations.InversionAlwaysSucceeds := by
  refine ⟨fun ht => ?_, fun ceiling h => ?_⟩
  · obtain ⟨x0, x1, x2, x3, rfl⟩ := exists_fourEntries_eq ht
    exact ⟨_, invertRegister_fourEntries x0 x1 x2 x3⟩
  · rcases crack_cases ceiling h with ⟨hc, -⟩ | ⟨q, ds, hc, -⟩
    all_goals rw [hc]; exact nofun

/-- Settles O49: four updates leave a value that does not depend on the start. -/
theorem inversionFindsTheLastFourIndices : Obligations.InversionFindsTheLastFourIndices := by
  intro r x0 x1 x2 x3
  exact recoverIndices_eq_some_iff.mpr (congrArg (~~~ ·) (foldl_advanceWith_four r x0 x1 x2 x3).symm)

/-- Settles O50: the answer is a completion of its candidate. -/
theorem crackIsSound : Obligations.CrackIsSound := by
  intro ceiling h bytes hbytes
  rcases crack_cases ceiling h with ⟨hc, -⟩ | ⟨q, ds, hc, hq, hds, -⟩
  · rw [hc] at hbytes; cases hbytes
  · rw [hc] at hbytes
    cases hbytes
    obtain ⟨hdigits, hhash⟩ := (hds ds).mpr rfl
    exact ⟨hhash, q, ds, hq, hdigits, rfl⟩

/-- Settles O51: the given string is a completion, so there is an answer, and its candidate is the smallest. -/
theorem crackFindsTheSmallestPrefix : Obligations.CrackFindsTheSmallestPrefix := by
  intro ceiling p ds hp hds
  have hcompl : Completes (publishedHash entry (decimal p ++ ds)) p ds := ⟨hds, rfl⟩
  rcases crack_cases ceiling (publishedHash entry (decimal p ++ ds)) with ⟨-, hnone⟩ | ⟨q, ds', hc, -, hds', hmin⟩
  · exact absurd hcompl (hnone p ds hp)
  · refine ⟨q, ds', not_lt.mp fun hlt => hmin p ds hlt hcompl, ((hds' ds').mpr rfl).1, hc, fun hqp => ?_,
      fun i es hi hes heq => hmin i es hi ⟨hes, heq⟩⟩
    exact ((hds' ds).mp (hqp ▸ hcompl)).symm

/-- Settles O52: the digits complete the candidate, so filter and validator accept it with them. -/
theorem validatorRecoversTheLastThreeDigits : Obligations.ValidatorRecoversTheLastThreeDigits := by
  intro p ds hds
  obtain ⟨si, hsi⟩ := exists_recoverIndices (publishedHash entry (decimal p ++ ds))
  exact ⟨si, hsi, candidateAnswer_eq_some.mp ((candidateAnswer_eq_some_iff hsi).mpr ⟨hds, rfl⟩)⟩

/-- Settles O53: `crack` answers a completion if there is one below the ceiling. -/
theorem crackAnswersNotFoundExactly : Obligations.CrackAnswersNotFoundExactly := by
  intro ceiling h
  rcases crack_cases ceiling h with ⟨hc, hnone⟩ | ⟨q, ds, hc, hq, hds, -⟩
  · exact iff_of_true hc fun i ds hi hds heq => hnone i ds hi ⟨hds, heq⟩
  · obtain ⟨hdigits, hhash⟩ := (hds ds).mpr rfl
    exact iff_of_false (by rw [hc]; exact nofun) fun hnone => hnone q ds hq hdigits hhash

/-- Settles O54: the minimum of the workers' hits and the hit of the search are smallest of the same candidates. -/
theorem workersFindTheSamePrefix : Obligations.WorkersFindTheSamePrefix := by
  intro ceiling ranges h hcover
  obtain ⟨si, hsi⟩ := exists_recoverIndices h
  have hworkers := workersHit_isSmallestHit (T := entry) (si := si) ranges
  simp only [← hcover] at hworkers
  rw [crackWorkers_eq_resultOfHit hsi, crack_eq_resultOfHit hsi,
    hworkers.unique (workerHit_ceiling_isSmallestHit entry si ceiling)]

/-- Settles O56: the runs of a candidate's commands and of one validator step. -/
theorem blockRunsTheCandidateCheck : Obligations.BlockRunsTheCandidateCheck := by
  refine ⟨fun s front last h => ?_, fun s x h => ?_⟩
  · exact runCommands_candidate h front last
  · have hidx := exec_idx 0x00#8 s
    have hst := exec_staysBuilt h hidx
    have hupdi := exec_updi_showing hst.1 x
    rw [← indexOf_zero]
    exact ⟨_, runCommands_cons_eq hidx (runCommands_cons_eq hupdi rfl), rfl, hst.trans (exec_staysBuilt hst.1 hupdi)⟩

/-- Settles O58: the set-up gives the host the built table, and each hash runs as `crack` on the built block. -/
theorem hostProgramCracksOnTheBlock : Obligations.HostProgramCracksOnTheBlock := by
  refine ⟨fun s h => ?_, fun ceiling hashes s h => ?_⟩
  · obtain ⟨t, ht, hst⟩ := setUp_eq h
    exact ⟨_, t, ht, by simp [ENTRIES], congrFun hostTable_entries, hst⟩
  · obtain ⟨t, ht, hst⟩ := setUp_eq h
    obtain ⟨u, hu, htu⟩ := crackAllOnBlock_eq hst.1 hostTable_entries ceiling hashes
    refine ⟨u, ?_, hst.trans htu⟩
    rw [hostProgram, ht]
    exact hu

/-- Settles O59: the candidate's commands follow the filter and the validator step by step. -/
theorem candidateOnTheBlockIsFilterAndValidator : Obligations.CandidateOnTheBlockIsFilterAndValidator := by
  intro si i s h
  obtain ⟨t, ht, ⟨hbuilt, herr⟩, hcrc⟩ := candidateOnBlock_eq h si i
  exact ⟨t, ht, hbuilt, herr, fun ds hf hv => hcrc ds (candidateAnswer_eq_some.mpr ⟨hf, hv⟩)⟩

/-- Settles O55: the four indices leave the complement of the hash; filter, validator and the string's hash by
evaluation. -/
theorem filterIsRequired : Obligations.FilterIsRequired := by
  refine ⟨_, recoverIndices_eq_some_iff.mpr ?_, rfl, ?_, ?_, ?_⟩ <;> decide

end Sys2Proof
end

section
/-! What answers an accepted word: a refusal by the one error whose cause it meets, or the effect of its command with code
`OK` (60_exceptions.md R140 to R145). -/

namespace Sys2Proof.Machine
open Sys2Proof.Laws Sys2Proof.Spec

/-- The cause of each error: the word encodes no command (R141), or its command reads the table while `TVALID = 0` (R142). -/
def ErrorCause (w : CmdWord) (s : State) : BlockError → Prop
  | .illegal => legalWord w = false
  | .noTable => s.tvalid = false ∧ ∃ i, decode w = .ok i ∧ readsTable i = true

/-- The code `OK` is neither error's. -/
theorem code_ne_okCode (e : BlockError) : e.code ≠ okCode := by
  cases e <;> decide

theorem code_inj {e e' : BlockError} (h : e.code = e'.code) : e = e' := by
  cases e <;> cases e'
  case illegal.illegal | noTable.noTable => rfl
  all_goals exact absurd h (by decide)

/-- A word that decodes does not have the cause of `ERR_ILLEGAL`. -/
theorem not_errorCause_illegal {w : CmdWord} {i : Instr} (hd : decode w = .ok i) (s : State) :
    ¬ ErrorCause w s .illegal :=
  ne_false_of_eq_true (legalWord_iff_decodes.mpr ⟨i, hd⟩)

/-- A word that decodes has the cause of `ERR_NOTABLE` when its command reads a table that is not built. -/
theorem errorCause_noTable_iff {w : CmdWord} {i : Instr} (hd : decode w = .ok i) (s : State) :
    ErrorCause w s .noTable ↔ s.tvalid = false ∧ readsTable i = true := by
  simp [ErrorCause, hd]

/-- No word has both causes: an illegal word has no command to read the table (R143). -/
theorem errorCause_unique {w : CmdWord} {s : State} {e e' : BlockError} (h : ErrorCause w s e) (h' : ErrorCause w s e') :
    e = e' := by
  cases e <;> cases e'
  case illegal.illegal | noTable.noTable => rfl
  case illegal.noTable =>
    obtain ⟨-, i, hd, -⟩ := h'
    exact absurd h (not_errorCause_illegal hd s)
  case noTable.illegal =>
    obtain ⟨-, i, hd, -⟩ := h
    exact absurd h' (not_errorCause_illegal hd s)

/-- A command is refused without a table that it reads, or it executes: code `OK`, `ERR` as it was. -/
theorem exec_refused_or_executed {i : Instr} {s t : State} (h : exec i s = .next t) :
    (s.tvalid = false ∧ readsTable i = true ∧ t = s.raise .noTable) ∨
    (¬ (s.tvalid = false ∧ readsTable i = true) ∧ t.err = s.err ∧ ∃ d, t.rsp = some (rspWord okCode d)) := by
  by_cases hc : s.tvalid = false ∧ readsTable i = true
  · obtain ⟨hv, hi⟩ := hc
    rw [exec_noTable hi hv] at h
    cases h
    exact .inl ⟨hv, hi, rfl⟩
  · refine .inr ⟨hc, ?_⟩
    rcases exec_next h with ⟨d, rfl, -, -⟩ | ⟨v, rfl, -⟩ | ⟨-, -, rfl⟩ | ⟨-, -, rfl⟩ | ⟨hv, hx, rfl⟩ |
      ⟨x, v, -, -, -, -, rfl⟩
    -- the refusal without a table
    case inr.inr.inr.inr.inl => exact absurd ⟨hv, (readsTable_eq_isSome_tableIndex i s).trans hx⟩ hc
    all_goals exact ⟨rfl, _, rfl⟩

/-- An accepted word is refused by an error whose cause it has, or it has no error's cause and its command executes: code
`OK`, `ERR` as it was. -/
theorem acceptCommand_refused_or_executed {w : CmdWord} {s t : State} (h : acceptCommand w s = .next t) :
    (∃ e, ErrorCause w s e ∧ t = s.raise e) ∨
    ((∀ e, ¬ ErrorCause w s e) ∧ t.err = s.err ∧ ∃ d, t.rsp = some (rspWord okCode d)) := by
  cases hw : legalWord w with
  | false =>
    obtain ⟨e, hd⟩ := decode_of_illegal hw
    rw [acceptCommand_error hd] at h
    cases h
    exact .inl ⟨.illegal, hw, rfl⟩
  | true =>
    obtain ⟨i, hd⟩ := legalWord_iff_decodes.mp hw
    rw [acceptCommand_ok hd] at h
    rcases exec_refused_or_executed h with ⟨hv, hi, ht⟩ | ⟨hn, hok⟩
    · exact .inl ⟨.noTable, (errorCause_noTable_iff hd s).mpr ⟨hv, hi⟩, ht⟩
    · refine .inr ⟨fun e he => ?_, hok⟩
      cases e with
      | illegal => exact not_errorCause_illegal hd s he
      | noTable => exact hn ((errorCause_noTable_iff hd s).mp he)

section
variable {w : CmdWord} {s t : State} {r : RspWord} (h : acceptCommand w s = .next t) (hr : t.rsp = some r)
include h hr

/-- The response has an error's code exactly when the word has that error's cause (R140). -/
theorem rspCode_eq_code_iff (e : BlockError) : rspCode r = e.code ↔ ErrorCause w s e := by
  rcases acceptCommand_refused_or_executed h with ⟨e', he', rfl⟩ | ⟨hn, -, d, hd⟩
  · cases hr
    rw [rspCode_rspWord]
    exact ⟨fun hc => code_inj hc ▸ he', fun he => congrArg _ (errorCause_unique he' he)⟩
  · cases hd.symm.trans hr
    rw [rspCode_rspWord]
    exact iff_of_false (code_ne_okCode e).symm (hn e)

/-- A response with a code that is not `OK` comes with the state of a refusal by that code (R144, R145). -/
theorem eq_refusedWith_of_rspCode_ne (hc : rspCode r ≠ okCode) : t = refusedWith s (rspCode r) := by
  rcases acceptCommand_refused_or_executed h with ⟨e, -, rfl⟩ | ⟨-, -, d, hd⟩
  · cases hr
    rw [rspCode_rspWord]
    exact raise_eq_refusedWith s e
  · cases hd.symm.trans hr
    exact absurd (rspCode_rspWord _ _) hc

/-- A response with code `OK` comes with `ERR` as it was (R145). -/
theorem err_eq_of_rspCode_eq (hc : rspCode r = okCode) : t.err = s.err := by
  rcases acceptCommand_refused_or_executed h with ⟨e, -, rfl⟩ | ⟨-, herr, -⟩
  · cases hr
    rw [rspCode_rspWord] at hc
    exact absurd hc (code_ne_okCode e)
  · exact herr

/-- A response has code `OK` or an error's code (R140). -/
theorem rspCode_eq_okCode_or : rspCode r = okCode ∨ ∃ e : BlockError, rspCode r = e.code := by
  rcases acceptCommand_refused_or_executed h with ⟨e, he, -⟩ | ⟨-, -, d, hd⟩
  · exact .inr ⟨e, (rspCode_eq_code_iff h hr e).mpr he⟩
  · cases hd.symm.trans hr
    exact .inl (rspCode_rspWord _ _)

/-- `ERR = 0` after an accepted word says that it was 0 before and that the word was not refused (R145). -/
theorem err_eq_zero_iff : t.err = 0#4 ↔ s.err = 0#4 ∧ rspCode r = okCode := by
  rcases rspCode_eq_okCode_or h hr with hc | ⟨e, hc⟩
  · rw [err_eq_of_rspCode_eq h hr hc, and_iff_left hc]
  · have hne : rspCode r ≠ okCode := hc ▸ code_ne_okCode e
    refine iff_of_false ?_ fun hz => hne hz.2
    rw [eq_refusedWith_of_rspCode_ne h hr hne, hc]
    exact stickyErr_ne_zero s.err e

end

/-- `ERR = 0` after a run of words says that it was 0 before and that no word of the run was refused (R145, R154). -/
theorem runWords_err_eq_zero_iff {ws : List CmdWord} {s t : State} {rs : List RspWord}
    (h : runWords ws s = .next (rs, t)) : t.err = 0#4 ↔ s.err = 0#4 ∧ ∀ r ∈ rs, rspCode r = okCode := by
  induction ws generalizing s rs with
  | nil => cases h; simp
  | cons w ws ih =>
    obtain ⟨s', rs', hw, hrun, rfl⟩ := runInputs_cons h
    obtain ⟨r, hr⟩ := acceptCommand_responds hw
    rw [ih hrun, err_eq_zero_iff hw hr, hr, Option.toList_some, List.singleton_append, List.forall_mem_cons, and_assoc]

/-- Under the invariant every step answers a next state (60_exceptions.md R154). -/
theorem step_answers {s : State} (h : s.Inv) : ∃ t, step s = .next t := by
  cases hi : s.inputs with
  | nil => exact ⟨_, step_idle hi⟩
  | cons p rest =>
    obtain ⟨t, ht⟩ := takeInput_answers (setInputs_inv h rest) p
    have hs : s.setInputs (p :: rest) = s := by rw [← hi]; rfl
    exact ⟨t, hs ▸ (step_input s p rest).trans ht⟩

end Sys2Proof.Machine
end

section
/-! The obligations of the exceptions family. -/

namespace Sys2Proof
open Sys2Proof.Machine Sys2Proof.Spec

/-- Settles O8: under the invariant every input is answered, and what it leaves has the invariant. -/
theorem noStateIsStuck : Obligations.NoStateIsStuck := by
  refine ⟨fun s h => step_answers h, fun w s h => ?_⟩
  obtain ⟨t, ht⟩ := takeInput_answers h (.command w)
  exact ⟨t, ht, acceptCommand_keeps_inv h ht⟩

/-- Settles O40: the response has an error's code exactly when the word has that error's cause. -/
theorem exactlyTwoErrors : Obligations.ExactlyTwoErrors := by
  intro w s t h
  obtain ⟨r, hr⟩ := acceptCommand_responds h
  refine ⟨r, hr, ?_, rspCode_eq_code_iff h hr .illegal, rspCode_eq_code_iff h hr .noTable, fun hc hz => ?_⟩
  · refine (rspCode_eq_okCode_or h hr).imp_right ?_
    rintro ⟨e, he⟩
    rw [he]
    exact code_eq_one_or_two e
  · rw [eq_refusedWith_of_rspCode_ne h hr hc]
    exact if_pos hz

/-- Settles O41: a code that is not `OK` belongs to a refusal, the code `OK` to a command that executed. -/
theorem refusalIsPreciseAndSticky : Obligations.RefusalIsPreciseAndSticky :=
  fun _ _ _ _ h hr => ⟨eq_refusedWith_of_rspCode_ne h hr, err_eq_of_rspCode_eq h hr⟩

/-- Settles O60: both sides are about the same run, at whose end `ERR` tells whether a word of it was refused. -/
theorem errZeroAtTheEndMeansNoRefusal : Obligations.ErrZeroAtTheEndMeansNoRefusal := by
  intro ws s _ hz
  refine exists_congr fun rs => exists_congr fun t => and_congr_right fun hrun => ?_
  rw [runWords_err_eq_zero_iff hrun, and_iff_right hz]

end Sys2Proof
end

section
/-! What no accepted word takes back (70_reset_and_hazards.md R162). -/

namespace Sys2Proof.Machine

/-- Every command leaves a set `TVALID` set: only BUILD writes it, and never to 0. -/
theorem exec_keeps_tvalid {i : Instr} {s t : State} (h : exec i s = .next t) (hv : s.tvalid = true) :
    t.tvalid = true := by
  by_cases hi : i = .build
  · subst hi
    rw [exec_build_built hv] at h
    cases h
    exact hv
  · exact (exec_tvalid_table_eq h hi).1.trans hv

/-- An accepted word, legal or not, leaves a set `TVALID` set. -/
theorem acceptCommand_keeps_tvalid {w : CmdWord} {s t : State} (h : acceptCommand w s = .next t)
    (hv : s.tvalid = true) : t.tvalid = true := by
  rcases acceptCommand_next h with ⟨-, rfl⟩ | ⟨i, -, he⟩
  · exact hv
  · exact exec_keeps_tvalid he hv

/-- An accepted word, legal or not, leaves a nonzero `ERR` as it is: the first error stays. -/
theorem acceptCommand_keeps_err {w : CmdWord} {s t : State} (h : acceptCommand w s = .next t)
    (he : s.err ≠ 0#4) : t.err = s.err := by
  rcases acceptCommand_refused_or_executed h with ⟨e, -, rfl⟩ | ⟨-, herr, -⟩
  · exact stickyErr_of_ne he e.code
  · exact herr

end Sys2Proof.Machine
end

section
/-! The clock-level ports: one lemma per kind of cycle, then the cycles of an executing block (70_reset_and_hazards.md
R160, R161, R165; log 10). -/

namespace Sys2Proof.Machine

/-- An idle block without a response on the port stays exactly as it is. -/
theorem State.idle_of_rsp_none {s : State} (h : s.rsp = none) : s.idle = s := by
  unfold State.idle State.setRsp
  rw [← h]

/-- An accepted word does not see whether a response was cleared before it. -/
theorem acceptCommand_idle (w : CmdWord) (s : State) : acceptCommand w s.idle = acceptCommand w s :=
  acceptCommand_setRsp w s none

namespace Port

/-- A cycle with `rst = 1` shows no response. -/
theorem rspValid_of_rst (p : Port) {pins : PortPins} (h : pins.rst = true) : p.rspValid pins = false := by
  simp [rspValid, rspShown, h]

/-- A block without a response on the port shows none, whatever the pins. -/
theorem rspValid_of_rsp_none {p : Port} (h : p.block.rsp = none) (pins : PortPins) : p.rspValid pins = false := by
  simp [rspValid, rspShown, h]

/-- A cycle with `rst = 1` accepts no word. -/
theorem accepts_of_rst (p : Port) {pins : PortPins} (h : pins.rst = true) : p.accepts pins = false := by
  simp [accepts, h]

/-- When a word is accepted (R160). -/
theorem accepts_iff {p : Port} {pins : PortPins} :
    p.accepts pins = true ↔ pins.cmdValid = true ∧ p.cmdReady = true ∧ pins.rst = false := by
  simp [accepts, and_assoc]

/-- A busy block is not ready. -/
theorem cmdReady_of_busy {p : Port} {c : CmdWord × Nat} (h : p.busy = some c) : p.cmdReady = false := by
  simp [cmdReady, h]

/-- A block that is not busy and has no response on the port is ready, whenever `cmd_ready` returns. -/
theorem cmdReady_of_idle {p : Port} (hb : p.busy = none) (hr : p.block.rsp = none) : p.cmdReady = true := by
  simp [cmdReady, hb, hr]

/-- A ready block is not busy. -/
theorem busy_of_cmdReady {p : Port} (h : p.cmdReady = true) : p.busy = none := by
  cases hb : p.busy with
  | none => rfl
  | some c => rw [cmdReady_of_busy hb] at h; cases h

/-- The last cycle of a command completes it. -/
theorem work_zero {p : Port} {w : CmdWord} {t : State} (h : acceptCommand w p.block = .next t) :
    p.work w 0 = .next ⟨t, none, p.clock + 1⟩ := by
  simp [work, h]

/-- A cycle with `rst = 1`, whatever the block was doing. -/
theorem cycle_of_rst (p : Port) {pins : PortPins} (h : pins.rst = true) :
    p.cycle pins = .next ⟨p.block.applyReset, none, p.clock + 1⟩ := by
  simp [cycle, h]

/-- A busy block works on its command, whatever is presented. -/
theorem cycle_of_busy {p : Port} {w : CmdWord} {n : Nat} (hb : p.busy = some (w, n)) {pins : PortPins}
    (h : pins.rst = false) : p.cycle pins = p.work w n := by
  simp [cycle, h, hb]

/-- A block that accepts a word begins to work on it in the same cycle. -/
theorem cycle_of_accepts {p : Port} {pins : PortPins} (h : p.accepts pins = true) :
    p.cycle pins = p.work pins.cmd (latencyBeyondOne p.clock pins.cmd) := by
  obtain ⟨-, hr, hrst⟩ := accepts_iff.mp h
  simp [cycle, hrst, busy_of_cmdReady hr, h]

/-- A block with nothing to do clears its response port. -/
theorem cycle_of_idle {p : Port} (hb : p.busy = none) {pins : PortPins} (h : pins.rst = false)
    (ha : p.accepts pins = false) : p.cycle pins = .next ⟨p.block.idle, none, p.clock + 1⟩ := by
  simp [cycle, h, hb, ha]

/-- Cycles from the first one's next state. -/
theorem cycles_cons {p q : Port} {pins : PortPins} (h : p.cycle pins = .next q) (later : List PortPins) :
    cycles (pins :: later) p = cycles later q := by
  simp [cycles, h]

/-- Cycles, and one more after them. -/
theorem cycles_concat {front : List PortPins} {p q r : Port} {pins : PortPins} (h : cycles front p = .next q)
    (hq : q.cycle pins = .next r) : cycles (front ++ [pins]) p = .next r := by
  induction front generalizing p with
  | nil => cases h; exact cycles_cons hq []
  | cons first rest ih =>
    cases hc : p.cycle first with
    | next p' =>
      rw [cycles_cons hc] at h
      exact (cycles_cons hc _).trans (ih h)
    | fault f => simp [cycles, hc] at h
    | refused r => simp [cycles, hc] at h

/-- A block that works on a word with `n` cycles left after this one completes it in the last of them, whatever the host
presents. The first cycle may be that of the acceptance or any later one. -/
theorem cycles_of_work {w : CmdWord} {n : Nat} {p : Port} {pins : PortPins} {later : List PortPins} {t : State}
    (hc : p.cycle pins = p.work w n) (ht : acceptCommand w p.block = .next t) (hrst : ∀ q ∈ later, q.rst = false)
    (hn : later.length = n) : cycles (pins :: later) p = .next ⟨t, none, p.clock + (n + 1)⟩ := by
  induction later generalizing n p pins with
  | nil =>
    subst hn
    exact cycles_cons (hc.trans (work_zero ht)) []
  | cons next later ih =>
    subst hn
    obtain ⟨hnext, hlater⟩ := List.forall_mem_cons.mp hrst
    have ht' : acceptCommand w p.block.idle = .next t := (acceptCommand_idle w p.block).trans ht
    have hrest := ih (p := ⟨p.block.idle, some (w, later.length), p.clock + 1⟩) (cycle_of_busy rfl hnext) ht' hlater rfl
    rw [cycles_cons hc, hrest, List.length_cons, Nat.add_assoc, Nat.add_comm 1]

/-- A busy block with cycles left keeps its state and counts them down, whatever the host presents. -/
theorem cycles_of_waiting {w : CmdWord} {later : List PortPins} {m : Nat} {p : Port}
    (hb : p.busy = some (w, m + later.length)) (hr : p.block.rsp = none) (hrst : ∀ q ∈ later, q.rst = false) :
    cycles later p = .next ⟨p.block, some (w, m), p.clock + later.length⟩ := by
  induction later generalizing p with
  | nil => cases p; cases hb; rfl
  | cons pins later ih =>
    obtain ⟨hpins, hlater⟩ := List.forall_mem_cons.mp hrst
    have hc : p.cycle pins = .next ⟨p.block.idle, some (w, m + later.length), p.clock + 1⟩ := cycle_of_busy hb hpins
    rw [State.idle_of_rsp_none hr] at hc
    have hrest := ih (p := ⟨p.block, some (w, m + later.length), p.clock + 1⟩) rfl hr hlater
    rw [cycles_cons hc, hrest, List.length_cons, Nat.add_assoc, Nat.add_comm 1]

/-- A word held on the port of a block that has completed a command is accepted at once or after one idle cycle. -/
theorem accepts_or_accepts_after_cycle {p : Port} (hb : p.busy = none) {pins : PortPins} (hrst : pins.rst = false)
    (hv : pins.cmdValid = true) :
    p.accepts pins = true ∨ ∃ q, p.cycle pins = .next q ∧ q.accepts pins = true := by
  cases ha : p.accepts pins with
  | true => exact .inl rfl
  | false => exact .inr ⟨_, cycle_of_idle hb hrst ha, accepts_iff.mpr ⟨hv, cmdReady_of_idle rfl rfl, hrst⟩⟩

end Port

end Sys2Proof.Machine
end

section
/-! The obligations of the reset and hazards family. -/

namespace Sys2Proof
open Sys2Proof.Machine Sys2Proof.Spec

/-- Settles O5: what no accepted word takes back, and the state that both kinds of reset leave. -/
theorem onlyResetClearsErrAndTvalid : Obligations.OnlyResetClearsErrAndTvalid := by
  refine ⟨fun w s t h => ⟨acceptCommand_keeps_tvalid h, acceptCommand_keeps_err h⟩, fun p s hp => ⟨s.applyReset, ?_⟩⟩
  have ht : takeInput p s = .next s.applyReset := by
    rcases hp with rfl | ⟨w, rfl⟩ <;> rfl
  exact ⟨ht, rfl, rfl, rfl, fun _ => rfl⟩

/-- Settles O45: the working block from the cycle of acceptance, the waiting block, and the last cycle. -/
theorem portCompletesTheAcceptedCommand : Obligations.PortCompletesTheAcceptedCommand := by
  refine ⟨fun p pins later t ha ht hrst hl => ?_, fun p pins ha => ?_, fun p w n later hb hr hrst hn => ?_,
    fun p w pins t hb hrst ht => (Port.cycle_of_busy hb hrst).trans (Port.work_zero ht)⟩
  · rw [acceptCommand_setRsp] at ht
    exact Port.cycles_of_work (Port.cycle_of_accepts ha) ht hrst (Nat.succ.inj hl)
  · rw [Port.cycle_of_accepts ha, latency]
    cases latencyBeyondOne p.clock pins.cmd with
    | zero => exact .inl rfl
    | succ n => exact .inr rfl
  · have hb' : p.busy = some (w, n - later.length + later.length) := by rwa [Nat.sub_add_cancel hn]
    exact ⟨_, Port.cycles_of_waiting hb' hr hrst, Port.rspValid_of_rsp_none hr, Port.cmdReady_of_busy rfl, rfl, rfl⟩

/-- Settles O47: after its `n + 1` cycles the block has completed its command and accepts the held word then or one cycle
later. -/
theorem heldCommandIsAccepted : Obligations.HeldCommandIsAccepted := by
  intro p w n pins t hb _ ht hrst hv
  have hq : Port.cycles (List.replicate (n + 1) pins) p = .next ⟨t, none, p.clock + (n + 1)⟩ :=
    Port.cycles_of_work (Port.cycle_of_busy hb hrst) ht (fun q hmem => by rwa [List.eq_of_mem_replicate hmem])
      List.length_replicate
  rcases Port.accepts_or_accepts_after_cycle (p := ⟨t, none, p.clock + (n + 1)⟩) rfl hrst hv with ha | ⟨q, hc, ha⟩
  · exact ⟨n + 1, _, le_rfl, Nat.le_succ _, hq, ha⟩
  · refine ⟨n + 2, q, Nat.le_succ _, le_rfl, ?_, ha⟩
    rw [List.replicate_succ']
    exact Port.cycles_concat hq hc

/-- Settles O4: a cycle with `rst = 1` from any block. -/
theorem resetAbandonsACommand : Obligations.ResetAbandonsACommand := fun p _ h =>
  ⟨p.rspValid_of_rst h, p.accepts_of_rst h, _, p.cycle_of_rst h, rfl, Port.rspValid_of_rsp_none rfl, rfl, rfl, rfl,
    fun _ => rfl⟩

/-- Settles O46: the idle cycle leaves no response, so the block is ready whenever `cmd_ready` returns. -/
theorem idlePortKeepsTheState : Obligations.IdlePortKeepsTheState := by
  intro p pins hb hrst ha
  have hc := Port.cycle_of_idle hb hrst ha
  refine ⟨hc, fun q hq => ?_⟩
  cases hc.symm.trans hq
  exact ⟨Port.cmdReady_of_idle rfl rfl, Port.rspValid_of_rsp_none rfl⟩

end Sys2Proof
end

section
/-! The fields of the STATUS view (10_state.md R15), each peeled off the word from the low end. -/

namespace Sys2Proof.Machine

/-- What stands in STATUS above bit 0, at a position counted from bit 1. -/
theorem extract_statusWord_succ (v : Bool) (e : BitVec 4) (p n : Nat) :
    (statusWord v e).extractLsb' (p + 1) n = (0#24 ++ e ++ 0#3).extractLsb' p n :=
  BitVec.extractLsb'_append_eq_of_le (xlo := BitVec.ofBool v) (Nat.le_add_left 1 p)

/-- What stands in STATUS above bit 3, at a position counted from bit 4. -/
theorem extract_statusWord_add_four (v : Bool) (e : BitVec 4) (p n : Nat) :
    (statusWord v e).extractLsb' (p + 4) n = (0#24 ++ e).extractLsb' p n :=
  (extract_statusWord_succ v e (p + 3) n).trans (BitVec.extractLsb'_append_eq_of_le (Nat.le_add_left 3 p))

/-- Bit 0 of STATUS is `TVALID`. -/
theorem getLsbD_statusWord_zero (v : Bool) (e : BitVec 4) : (statusWord v e).getLsbD 0 = v :=
  calc (statusWord v e).getLsbD 0
    _ = (BitVec.ofBool v).getLsbD 0 := BitVec.getLsbD_append (x := 0#24 ++ e ++ 0#3)
    _ = v := BitVec.getLsbD_ofBool v 0

/-- Bits 3:1 of STATUS are 0. -/
theorem extract_statusWord_low_reserved (v : Bool) (e : BitVec 4) : (statusWord v e).extractLsb' 1 3 = 0#3 :=
  (extract_statusWord_succ v e 0 3).trans BitVec.extractLsb'_append_eq_right

/-- Bits 7:4 of STATUS are `ERR`. -/
theorem extract_statusWord_err (v : Bool) (e : BitVec 4) : (statusWord v e).extractLsb' 4 4 = e :=
  (extract_statusWord_add_four v e 0 4).trans BitVec.extractLsb'_append_eq_right

/-- Bits 31:8 of STATUS are 0. -/
theorem extract_statusWord_high_reserved (v : Bool) (e : BitVec 4) : (statusWord v e).extractLsb' 8 24 = 0#24 :=
  (extract_statusWord_add_four v e 4 24).trans BitVec.extractLsb'_append_eq_left

end Sys2Proof.Machine
end

section
/-! The remaining obligations about the state: its reset value and its STATUS view. -/

namespace Sys2Proof
open Sys2Proof.Machine

/-- Settles O6: a reset gives the invariant from every state, and the reset state is what a reset gives. -/
theorem resetSatisfiesInvariant : Obligations.ResetSatisfiesInvariant := reset_satisfies_inv

/-- Settles O18, field by field of the STATUS word. -/
theorem statusLayout : Obligations.StatusLayout := fun s =>
  ⟨getLsbD_statusWord_zero s.tvalid s.err, extract_statusWord_low_reserved s.tvalid s.err,
    extract_statusWord_err s.tvalid s.err, extract_statusWord_high_reserved s.tvalid s.err⟩

end Sys2Proof
end
